-- ==== Sys2Proof/Word.lean ====
section
/-! DEFINITION. The word types of the CHIP-8 core (spec 10_state.md, 30_encoding.md R91): bytes, 16-bit words,
register names and key codes. -/

namespace Sys2Proof

/-- One memory byte or one general register (R20, R60). -/
abbrev Byte := BitVec 8

/-- A 16-bit word: an opcode, `I`, `pc`, a stack entry (R22, R23, R25, R26). -/
abbrev Word := BitVec 16

/-- The name of a general register, 0..15 (R20). -/
abbrev Reg := Fin 16

/-- `VF`, the flag register (R21). -/
abbrev VF : Reg := 15

/-- A key code 0..15 (R36, R280). -/
abbrev Key := Fin 16

end Sys2Proof
end

