-- ==== Sys2Proof/Syntax.lean ====
section
/-! DEFINITION. The 34 instructions of spec 30_encoding.md R95, one constructor a row of the opcode table. Every operand
has exactly the width of its field (R91, R93), so every term is an instruction with a word of its own. -/

namespace Sys2Proof

/-- One constructor per row of R95, in the table's order. X and Y name registers; NN, NNN and N are immediates. -/
inductive Instr where
  | cls                                -- 00E0
  | ret                                -- 00EE
  | jp (nnn : BitVec 12)               -- 1NNN
  | call (nnn : BitVec 12)             -- 2NNN
  | seImm (x : Reg) (nn : Byte)        -- 3XNN
  | sneImm (x : Reg) (nn : Byte)       -- 4XNN
  | seReg (x y : Reg)                  -- 5XY0
  | ldImm (x : Reg) (nn : Byte)        -- 6XNN
  | addImm (x : Reg) (nn : Byte)       -- 7XNN
  | ldReg (x y : Reg)                  -- 8XY0
  | orReg (x y : Reg)                  -- 8XY1
  | andReg (x y : Reg)                 -- 8XY2
  | xorReg (x y : Reg)                 -- 8XY3
  | addReg (x y : Reg)                 -- 8XY4
  | subReg (x y : Reg)                 -- 8XY5
  | shr (x y : Reg)                    -- 8XY6
  | subn (x y : Reg)                   -- 8XY7
  | shl (x y : Reg)                    -- 8XYE
  | sneReg (x y : Reg)                 -- 9XY0
  | ldI (nnn : BitVec 12)              -- ANNN
  | jpV0 (nnn : BitVec 12)             -- BNNN
  | rnd (x : Reg) (nn : Byte)          -- CXNN
  | drw (x y : Reg) (n : BitVec 4)     -- DXYN
  | skp (x : Reg)                      -- EX9E
  | sknp (x : Reg)                     -- EXA1
  | ldVxDT (x : Reg)                   -- FX07
  | ldVxK (x : Reg)                    -- FX0A
  | ldDTVx (x : Reg)                   -- FX15
  | ldSTVx (x : Reg)                   -- FX18
  | addI (x : Reg)                     -- FX1E
  | ldF (x : Reg)                      -- FX29
  | ldB (x : Reg)                      -- FX33
  | ldMemVx (x : Reg)                  -- FX55
  | ldVxMem (x : Reg)                  -- FX65
  deriving DecidableEq, Repr

end Sys2Proof
end

