-- ==== Sys2Proof/WellFormed.lean ====
section
/-! DEFINITION. Which 16-bit words are instructions: the mask and match table of spec 30_encoding.md R95. An `Instr`
needs no check of its own, because each operand's type is exactly its field (R93: a nibble always names a register that
exists); the check is on the word a program holds, and an illegal word (R97) is refused by it. -/

namespace Sys2Proof

/-- A row of R95: an opcode is the row's instruction exactly when `op & mask = value`. -/
structure OpcodeRow where
  mask  : Word
  value : Word
  deriving DecidableEq, Repr

/-- The row of R95 an instruction belongs to (mask, match). -/
def Instr.row : Instr → OpcodeRow
  | .cls => ⟨0xFFFF, 0x00E0⟩
  | .ret => ⟨0xFFFF, 0x00EE⟩
  | .jp _ => ⟨0xF000, 0x1000⟩
  | .call _ => ⟨0xF000, 0x2000⟩
  | .seImm _ _ => ⟨0xF000, 0x3000⟩
  | .sneImm _ _ => ⟨0xF000, 0x4000⟩
  | .seReg _ _ => ⟨0xF00F, 0x5000⟩
  | .ldImm _ _ => ⟨0xF000, 0x6000⟩
  | .addImm _ _ => ⟨0xF000, 0x7000⟩
  | .ldReg _ _ => ⟨0xF00F, 0x8000⟩
  | .orReg _ _ => ⟨0xF00F, 0x8001⟩
  | .andReg _ _ => ⟨0xF00F, 0x8002⟩
  | .xorReg _ _ => ⟨0xF00F, 0x8003⟩
  | .addReg _ _ => ⟨0xF00F, 0x8004⟩
  | .subReg _ _ => ⟨0xF00F, 0x8005⟩
  | .shr _ _ => ⟨0xF00F, 0x8006⟩
  | .subn _ _ => ⟨0xF00F, 0x8007⟩
  | .shl _ _ => ⟨0xF00F, 0x800E⟩
  | .sneReg _ _ => ⟨0xF00F, 0x9000⟩
  | .ldI _ => ⟨0xF000, 0xA000⟩
  | .jpV0 _ => ⟨0xF000, 0xB000⟩
  | .rnd _ _ => ⟨0xF000, 0xC000⟩
  | .drw _ _ _ => ⟨0xF000, 0xD000⟩
  | .skp _ => ⟨0xF0FF, 0xE09E⟩
  | .sknp _ => ⟨0xF0FF, 0xE0A1⟩
  | .ldVxDT _ => ⟨0xF0FF, 0xF007⟩
  | .ldVxK _ => ⟨0xF0FF, 0xF00A⟩
  | .ldDTVx _ => ⟨0xF0FF, 0xF015⟩
  | .ldSTVx _ => ⟨0xF0FF, 0xF018⟩
  | .addI _ => ⟨0xF0FF, 0xF01E⟩
  | .ldF _ => ⟨0xF0FF, 0xF029⟩
  | .ldB _ => ⟨0xF0FF, 0xF033⟩
  | .ldMemVx _ => ⟨0xF0FF, 0xF055⟩
  | .ldVxMem _ => ⟨0xF0FF, 0xF065⟩

/-- The rows of R95, in the table's order: families 0 to 7. -/
def opcodeRowsLow : List OpcodeRow :=
  [Instr.cls.row, Instr.ret.row, (Instr.jp 0).row, (Instr.call 0).row, (Instr.seImm 0 0).row, (Instr.sneImm 0 0).row,
   (Instr.seReg 0 0).row, (Instr.ldImm 0 0).row, (Instr.addImm 0 0).row]

/-- The rows of R95: families 8 and 9. -/
def opcodeRowsMid : List OpcodeRow :=
  [(Instr.ldReg 0 0).row, (Instr.orReg 0 0).row, (Instr.andReg 0 0).row, (Instr.xorReg 0 0).row, (Instr.addReg 0 0).row,
   (Instr.subReg 0 0).row, (Instr.shr 0 0).row, (Instr.subn 0 0).row, (Instr.shl 0 0).row, (Instr.sneReg 0 0).row]

/-- The rows of R95: families A to F. -/
def opcodeRowsHigh : List OpcodeRow :=
  [(Instr.ldI 0).row, (Instr.jpV0 0).row, (Instr.rnd 0 0).row, (Instr.drw 0 0 0).row, (Instr.skp 0).row,
   (Instr.sknp 0).row, (Instr.ldVxDT 0).row, (Instr.ldVxK 0).row, (Instr.ldDTVx 0).row, (Instr.ldSTVx 0).row,
   (Instr.addI 0).row, (Instr.ldF 0).row, (Instr.ldB 0).row, (Instr.ldMemVx 0).row, (Instr.ldVxMem 0).row]

/-- The whole table of R95: 34 rows. -/
def opcodeRows : List OpcodeRow := opcodeRowsLow ++ opcodeRowsMid ++ opcodeRowsHigh

/-- `op & mask = match` (R95). -/
def OpcodeRow.fits (r : OpcodeRow) (op : Word) : Bool := (op &&& r.mask) == r.value

/-- A word is legal when some row matches it; every other word is illegal (R97, R99). -/
def legalOpcode (op : Word) : Bool := opcodeRows.any fun r => r.fits op

end Sys2Proof
end

