-- ==== Sys2Proof/Decode.lean ====
section
/-! DEFINITION. Decoding (spec 30_encoding.md R90 to R97): a total function from words, and from bytes, to an
instruction or a rejection by name; then the encoder, written from the formats of R92; then the table's word numbering. -/

namespace Sys2Proof

/-- Why bytes are not an instruction. -/
inductive DecodeError where
  /-- No row of R95 matches the word (R97). Raised by `decode`. Safe: the machine faults with UNKNOWN_OPCODE. -/
  | illegal (op : Word)
  /-- Fewer than two bytes were given. Raised by `decodeBytes` only. The machine never meets it: its fetch reads two bytes. -/
  | truncated
  deriving DecidableEq, Repr

/-- The fields of R91, all cut from the word unconditionally (R123). -/
structure Fields where
  t   : BitVec 4
  x   : Reg
  y   : Reg
  n   : BitVec 4
  nn  : Byte
  nnn : BitVec 12
  deriving DecidableEq, Repr

/-- A nibble as the register it names (R93). -/
def regOfNibble (b : BitVec 4) : Reg := ⟨b.toNat, b.isLt⟩

/-- A register's number as a nibble. -/
def nibbleOfReg (r : Reg) : BitVec 4 := BitVec.ofNat 4 r.val

/-- Field extraction (R91): bit 0 is the least significant bit. -/
def fieldsOf (op : Word) : Fields where
  t   := op.extractLsb' 12 4
  x   := regOfNibble (op.extractLsb' 8 4)
  y   := regOfNibble (op.extractLsb' 4 4)
  n   := op.extractLsb' 0 4
  nn  := op.extractLsb' 0 8
  nnn := op.extractLsb' 0 12

/-- Family 0: the whole low part selects (R96). -/
def decode0 (f : Fields) : Option Instr :=
  if f.nnn = 0x0E0 then some .cls else if f.nnn = 0x0EE then some .ret else none

/-- Family 8: N selects (R96). -/
def decode8 (f : Fields) : Option Instr :=
  if f.n = 0x0 then some (.ldReg f.x f.y)
  else if f.n = 0x1 then some (.orReg f.x f.y)
  else if f.n = 0x2 then some (.andReg f.x f.y)
  else if f.n = 0x3 then some (.xorReg f.x f.y)
  else if f.n = 0x4 then some (.addReg f.x f.y)
  else if f.n = 0x5 then some (.subReg f.x f.y)
  else if f.n = 0x6 then some (.shr f.x f.y)
  else if f.n = 0x7 then some (.subn f.x f.y)
  else if f.n = 0xE then some (.shl f.x f.y)
  else none

/-- Family E: NN selects (R96). -/
def decodeE (f : Fields) : Option Instr :=
  if f.nn = 0x9E then some (.skp f.x) else if f.nn = 0xA1 then some (.sknp f.x) else none

/-- Family F: NN selects (R96). -/
def decodeF (f : Fields) : Option Instr :=
  if f.nn = 0x07 then some (.ldVxDT f.x)
  else if f.nn = 0x0A then some (.ldVxK f.x)
  else if f.nn = 0x15 then some (.ldDTVx f.x)
  else if f.nn = 0x18 then some (.ldSTVx f.x)
  else if f.nn = 0x1E then some (.addI f.x)
  else if f.nn = 0x29 then some (.ldF f.x)
  else if f.nn = 0x33 then some (.ldB f.x)
  else if f.nn = 0x55 then some (.ldMemVx f.x)
  else if f.nn = 0x65 then some (.ldVxMem f.x)
  else none

/-- Two-level dispatch (R94, R96, R124): the top nibble selects the family, the second selector the instruction. -/
def decodeFields (f : Fields) : Option Instr :=
  if f.t = 0x0 then decode0 f
  else if f.t = 0x1 then some (.jp f.nnn)
  else if f.t = 0x2 then some (.call f.nnn)
  else if f.t = 0x3 then some (.seImm f.x f.nn)
  else if f.t = 0x4 then some (.sneImm f.x f.nn)
  else if f.t = 0x5 then (if f.n = 0 then some (.seReg f.x f.y) else none)
  else if f.t = 0x6 then some (.ldImm f.x f.nn)
  else if f.t = 0x7 then some (.addImm f.x f.nn)
  else if f.t = 0x8 then decode8 f
  else if f.t = 0x9 then (if f.n = 0 then some (.sneReg f.x f.y) else none)
  else if f.t = 0xA then some (.ldI f.nnn)
  else if f.t = 0xB then some (.jpV0 f.nnn)
  else if f.t = 0xC then some (.rnd f.x f.nn)
  else if f.t = 0xD then some (.drw f.x f.y f.n)
  else if f.t = 0xE then decodeE f
  else decodeF f

/-- The instruction of a word, or its rejection by name (R95, R97). -/
def decode (op : Word) : Except DecodeError Instr :=
  match decodeFields (fieldsOf op) with
  | some i => .ok i
  | none => .error (.illegal op)

/-- The first two bytes as a word: the byte at the lower address is the high byte (R67, R90). -/
def wordOfBytes (hi lo : Byte) : Word := hi ++ lo

/-- Decode the instruction at the head of a byte list and give the rest back (R90: every instruction is two bytes). -/
def decodeBytes : List Byte → Except DecodeError (Instr × List Byte)
  | hi :: lo :: rest =>
    match decode (wordOfBytes hi lo) with
    | .ok i => .ok (i, rest)
    | .error e => .error e
  | _ => .error .truncated

/-! ## The encoder (R92) -/

/-- Format `NNN`: T(4) ++ NNN(12). -/
def wordNNN (t : BitVec 4) (nnn : BitVec 12) : Word := t ++ nnn

/-- Formats `XNN` and `X`: T(4) ++ X(4) ++ NN(8), NN the immediate or the sub-operation. -/
def wordXNN (t : BitVec 4) (x : Reg) (nn : Byte) : Word := t ++ nibbleOfReg x ++ nn

/-- Formats `XY` and `XYN`: T(4) ++ X(4) ++ Y(4) ++ N(4), N the sub-operation or the operand. -/
def wordXYN (t : BitVec 4) (x y : Reg) (n : BitVec 4) : Word := t ++ nibbleOfReg x ++ nibbleOfReg y ++ n

/-- The word of an instruction (R92, R95). -/
def encode : Instr → Word
  | .cls => 0x00E0
  | .ret => 0x00EE
  | .jp nnn => wordNNN 0x1 nnn
  | .call nnn => wordNNN 0x2 nnn
  | .seImm x nn => wordXNN 0x3 x nn
  | .sneImm x nn => wordXNN 0x4 x nn
  | .seReg x y => wordXYN 0x5 x y 0x0
  | .ldImm x nn => wordXNN 0x6 x nn
  | .addImm x nn => wordXNN 0x7 x nn
  | .ldReg x y => wordXYN 0x8 x y 0x0
  | .orReg x y => wordXYN 0x8 x y 0x1
  | .andReg x y => wordXYN 0x8 x y 0x2
  | .xorReg x y => wordXYN 0x8 x y 0x3
  | .addReg x y => wordXYN 0x8 x y 0x4
  | .subReg x y => wordXYN 0x8 x y 0x5
  | .shr x y => wordXYN 0x8 x y 0x6
  | .subn x y => wordXYN 0x8 x y 0x7
  | .shl x y => wordXYN 0x8 x y 0xE
  | .sneReg x y => wordXYN 0x9 x y 0x0
  | .ldI nnn => wordNNN 0xA nnn
  | .jpV0 nnn => wordNNN 0xB nnn
  | .rnd x nn => wordXNN 0xC x nn
  | .drw x y n => wordXYN 0xD x y n
  | .skp x => wordXNN 0xE x 0x9E
  | .sknp x => wordXNN 0xE x 0xA1
  | .ldVxDT x => wordXNN 0xF x 0x07
  | .ldVxK x => wordXNN 0xF x 0x0A
  | .ldDTVx x => wordXNN 0xF x 0x15
  | .ldSTVx x => wordXNN 0xF x 0x18
  | .addI x => wordXNN 0xF x 0x1E
  | .ldF x => wordXNN 0xF x 0x29
  | .ldB x => wordXNN 0xF x 0x33
  | .ldMemVx x => wordXNN 0xF x 0x55
  | .ldVxMem x => wordXNN 0xF x 0x65

/-! ## The opcode table's numbering of bits -/

/-- The word a table row's bits spell: bits at or above `nbits` are 0, and an instruction has 16 bits (R90). -/
def tableWord (nbits w : Nat) : Word := BitVec.ofNat 16 (w % 2 ^ nbits)

/-- That word as the hardware stores it: high byte at the lower address (R67, R90). -/
def tableBytes (nbits w : Nat) : List Byte :=
  [(tableWord nbits w).extractLsb' 8 8, (tableWord nbits w).extractLsb' 0 8]

/-- What the decoder reads from an instruction whose bits are `w`, numbered as the opcode table numbers them. -/
def decodeTableWord (nbits w : Nat) : Option Instr :=
  match decodeBytes (tableBytes nbits w) with
  | .ok (i, _) => some i
  | .error _ => none

end Sys2Proof
end

