-- ==== Sys2Proof/Config.lean ====
section
/-! DEFINITION. What is fixed for the machine (spec 00_scope.md R4, R5): the named parameters, and the one free value
of the spec, the answer of the byte source. -/

namespace Sys2Proof.Config

/-- `MEM_SIZE` (R4): bytes of memory. -/
@[simp] abbrev memSize : Nat := 4096

/-- `FONT_SIZE` (R4): the font table is addresses 0 .. 79. -/
@[simp] abbrev fontSize : Nat := 80

/-- `GLYPH_BYTES` (R4). -/
@[simp] abbrev glyphBytes : Nat := 5

/-- `PROG_BASE` (R4): the load address and the program counter's reset value. -/
@[simp] abbrev progBase : Nat := 512

/-- `PROG_MAX` (R4): the largest image in bytes. -/
@[simp] abbrev progMax : Nat := 3584

/-- `STACK_DEPTH` (R4). -/
@[simp] abbrev stackDepth : Nat := 12

/-- `DISP_W` (R4). -/
@[simp] abbrev dispW : Nat := 64

/-- `DISP_H` (R4). -/
@[simp] abbrev dispH : Nat := 32

/-- `IPF` (R4, R272): instruction slots of one frame. -/
@[simp] abbrev ipf : Nat := 10

/-- `SPRITE_MSB_LEFT` (R213, decision D14). PRESUMED (log entry 11): bit 7 of a sprite byte is the left pixel. -/
def spriteMsbLeft : Bool := true

/-- The byte source's answer to the draw with this number, where State lists no answer (R171, R283, decision D18).
A free value: no body, so nothing about it can be proved (log entry 9). -/
opaque freeByte : Nat → Byte

end Sys2Proof.Config
end

