-- ==== Sys2Proof/Machine/Memory.lean ====
section
/-! DEFINITION. The one memory (spec 20_memory.md): 4096 bytes, held as the list of the bytes that differ from what reset
puts at their address, in strictly rising address order. -/

namespace Sys2Proof.Machine

/-- Glyphs 0 to 7 of R62. -/
def fontLow : List Byte :=
  [0xF0, 0x90, 0x90, 0x90, 0xF0] ++ [0x20, 0x60, 0x20, 0x20, 0x70] ++ [0xF0, 0x10, 0xF0, 0x80, 0xF0] ++
  [0xF0, 0x10, 0xF0, 0x10, 0xF0] ++ [0x90, 0x90, 0xF0, 0x10, 0x10] ++ [0xF0, 0x80, 0xF0, 0x10, 0xF0] ++
  [0xF0, 0x80, 0xF0, 0x90, 0xF0] ++ [0xF0, 0x10, 0x20, 0x40, 0x40]

/-- Glyphs 8 to F of R62. -/
def fontHigh : List Byte :=
  [0xF0, 0x90, 0xF0, 0x90, 0xF0] ++ [0xF0, 0x90, 0xF0, 0x10, 0xF0] ++ [0xF0, 0x90, 0xF0, 0x90, 0x90] ++
  [0xE0, 0x90, 0xE0, 0x90, 0xE0] ++ [0xF0, 0x80, 0x80, 0x80, 0xF0] ++ [0xE0, 0x90, 0x90, 0x90, 0xE0] ++
  [0xF0, 0x80, 0xF0, 0x80, 0xF0] ++ [0xF0, 0x80, 0xF0, 0x80, 0x80]

/-- The default of the parameter `FONT` (R62). PRESUMED (log entry 2): the spec's table is from general knowledge. -/
def defaultFont : List Byte := fontLow ++ fontHigh

/-- What an address reads as when memory lists nothing for it: its contents after reset with the default font and an
empty image (R35, R39, R61). -/
def initialByte (a : Nat) : Byte := if a < Config.fontSize then defaultFont.getD a 0 else 0

/-- Memory as (address, byte) pairs. -/
abbrev Memory := List Host.Cell

/-- The byte at an address (the value of R63's read, once the address is known to be in range). -/
def Memory.byte : Memory → Nat → Byte
  | [], a => initialByte a
  | c :: m, a => if c.1 = a then c.2 else Memory.byte m a

/-- Forget what is listed for an address. -/
def Memory.forget (m : Memory) (a : Nat) : Memory := m.filter fun c => c.1 != a

/-- List a byte at its place in the address order. -/
def Memory.place (a : Nat) (b : Byte) : Memory → Memory
  | [] => [(a, b)]
  | c :: m => if a < c.1 then (a, b) :: c :: m else c :: Memory.place a b m

/-- Store a byte (the effect of R64's write, once the address is known to be writable), keeping the canonical form: the
value an unlisted address reads as is not listed. -/
def Memory.write (m : Memory) (a : Nat) (b : Byte) : Memory :=
  if b = initialByte a then m.forget a else (m.forget a).place a b

/-- Store bytes at consecutive addresses from `a` up (R66). -/
def Memory.writeList (m : Memory) (a : Nat) : List Byte → Memory
  | [] => m
  | b :: bs => (m.write a b).writeList (a + 1) bs

/-- The `k` bytes from `a` up. -/
def Memory.bytes (m : Memory) (a : Nat) : Nat → List Byte
  | 0 => []
  | k + 1 => m.byte a :: m.bytes (a + 1) k

/-- The cells of a run of bytes placed from `a` up: only those that differ from an unlisted address (R300, R76). -/
def Memory.ofBytes (a : Nat) : List Byte → Memory
  | [] => []
  | b :: bs => if b = initialByte a then Memory.ofBytes (a + 1) bs else (a, b) :: Memory.ofBytes (a + 1) bs

/-- The canonical form: addresses strictly rising, each in the address space (R60), no entry that says what an unlisted
address says. -/
abbrev Memory.wf (m : Memory) : Prop :=
  m.Pairwise (fun c d => c.1 < d.1) ∧ ∀ c ∈ m, c.1 < Config.memSize ∧ c.2 ≠ initialByte c.1

end Sys2Proof.Machine
end

