-- ==== Sys2Proof/Machine/State.lean ====
section
/-! DEFINITION. The machine's state (spec 10_state.md), its faults (60_exceptions.md R252, R253), and reset. -/

namespace Sys2Proof.Machine

/-- The causes of R253. Every one is terminal, so a fault never makes a false claim about a later state provable. -/
inductive FaultCause where
  /-- 1. Raised by `step` when the fetched word matches no row of R95 (R97). Safe: the spec's own stop. -/
  | unknownOpcode
  /-- 2. Raised by 2NNN with 12 live entries (R142). Safe: the spec's own stop. -/
  | stackOverflow
  /-- 3. Raised by 00EE with no live entry (R140). Safe: the spec's own stop. -/
  | stackUnderflow
  /-- 4. Raised by fetch, BNNN, FX33, FX55, FX65 and DXYN for an address above 4095 (R69, R121, R148, R196, R211). Safe: the spec's own stop. -/
  | addressOutOfBounds
  /-- 5. Raised by FX29 for a glyph number above 15 (R192). Safe: the spec's own stop. -/
  | glyphIndexRange
  /-- 6. Raised at load, by `State.resetWith`, for an image longer than 3584 bytes (R301). Safe: no instruction runs. -/
  | imageTooLarge
  /-- 7. Raised by the host's loader before the core exists (R257). No function of the model raises it: safe. -/
  | imageUnreadable
  /-- 8. Raised by 1NNN, 2NNN and BNNN for a target below 512 (R148, decision D8). Safe: the spec decides for the stop. -/
  | reservedTarget
  /-- 9. Raised by FX1E for a sum above 65535 (R191, decision D9). Safe: the spec decides for the stop. -/
  | indexOverflow
  /-- 10. Raised by EX9E and EXA1 for a key code above 15 (R236, decision D10). Safe: the spec decides for the stop. -/
  | keyCodeRange
  /-- 11. Raised by FX33 and FX55 for a write below 80 (R64, R196, decision D11). Safe: the spec decides for the stop. -/
  | fontWrite
  deriving DecidableEq, Repr

/-- The code numbers of R253. -/
def FaultCause.code : FaultCause → Nat
  | .unknownOpcode => 1
  | .stackOverflow => 2
  | .stackUnderflow => 3
  | .addressOutOfBounds => 4
  | .glyphIndexRange => 5
  | .imageTooLarge => 6
  | .imageUnreadable => 7
  | .reservedTarget => 8
  | .indexOverflow => 9
  | .keyCodeRange => 10
  | .fontWrite => 11

/-- The fault record (R32, R252). -/
structure FaultRecord where
  cause  : FaultCause
  addr   : Word
  opcode : Option Word
  info   : Nat
  deriving DecidableEq, Repr

/-- Why a step stops the machine. -/
inductive Fault where
  /-- Raised by `step` and by the meanings through `raise`: the fault record of R251. Safe: the record is all that may be
  read of a faulted machine (R254), and it is all this answer carries. -/
  | raised (record : FaultRecord)
  deriving DecidableEq, Repr

/-- Why an instruction has no meaning. -/
inductive Refusal where
  /-- Answered by `exec` for an instruction that has no meaning yet; no arm is left that answers it. Safe. -/
  | notModelled (mnemonic : String)
  deriving DecidableEq, Repr

/-- `run_state` together with the fault record, which is not empty exactly in FAULTED (R31, R32). -/
inductive RunState where
  | running
  | faulted (record : FaultRecord)
  | stopped
  deriving DecidableEq, Repr

/-- What the host presents to one frame (R10, R270, R284): `keys_held` (bit k is key k), `key_event`, `stop_req`. -/
structure HostIn where
  keysHeld : BitVec 16
  keyEvent : Option Key
  stopReq  : Bool
  deriving DecidableEq, Repr

/-- The frame buffer (R34): 32 rows, each 64 columns. In a row the leftmost column is the most significant bit (log entry 11). -/
abbrev FrameBuffer := Vector (BitVec 64) 32

/-- An event on an output port (R10). -/
inductive OutEvent where
  | startTone
  | stopTone
  | flush (fb : FrameBuffer)
  | fault (record : FaultRecord)
  deriving DecidableEq, Repr

/-- Every piece of state of spec 10_state.md, and, last, the model's own: what the host will present and what the core has
sent (log entries 8, 9, 10). -/
structure State where
  regs     : Vector Byte 16         -- V[0] .. V[15] (R20, R21)
  i        : Word                   -- I (R22)
  pc       : Word                   -- pc (R23)
  stack    : List Word              -- the live entries, newest first: sp is its length (R26)
  dt       : Byte                   -- DT (R27)
  st       : Byte                   -- ST (R28)
  legacy   : Bool                   -- LEGACY (R29)
  dirty    : Bool                   -- dirty (R30)
  runState : RunState               -- run_state and the fault record (R31, R32)
  slot     : Nat                    -- slot (R33)
  fb       : FrameBuffer            -- FB (R34)
  mem      : Memory                 -- Mem (R35)
  keysHeld : BitVec 16              -- keys_held (R36)
  keyEvent : Option Key             -- key_event (R36)
  tone     : Bool                   -- tone (R37)
  hostQueue : List HostIn           -- inputs of the current frame (head) and of the frames after it
  hostIdle  : HostIn                -- inputs of every frame after those
  randQueue : List Byte             -- the byte source's next answers
  randDrawn : Nat                   -- how many bytes have been drawn
  out       : List OutEvent         -- events sent so far, newest first
  deriving DecidableEq, Repr

/-- No key, no event, no stop request. -/
def HostIn.quiet : HostIn := ⟨0, none, false⟩

/-- The machine right after reset (R39, R300) with an empty image and the default font. The program counter and memory are
the source's; the other zeros are the spec's decision D16 (log entry 1); `LEGACY` = 0 is DESIGN CHOICE (log entry 3); the
last five fields are the model's own, DESIGN CHOICE (log entries 8, 9, 10). -/
def State.reset : State where
  regs := Vector.replicate 16 0
  i := 0
  pc := 512
  stack := []
  dt := 0
  st := 0
  legacy := false
  dirty := false
  runState := .running
  slot := 0
  fb := Vector.replicate 32 0
  mem := []
  keysHeld := 0
  keyEvent := none
  tone := false
  hostQueue := []
  hostIdle := HostIn.quiet
  randQueue := []
  randDrawn := 0
  out := []

/-- What a step or a meaning answers. -/
abbrev Result := Host.Outcome State Fault Refusal

end Sys2Proof.Machine
end

