-- ==== Sys2Proof/Machine/Ops.lean ====
section
/-! DEFINITION. The named operations every meaning is made of: register access, memory access with the checks of spec
20_memory.md, the call stack, the byte source, and raising a fault (60_exceptions.md R251). -/

namespace Sys2Proof.Machine

/-! ## Registers -/

/-- Read of `V[r]` (R12, R20). -/
def State.reg (s : State) (r : Reg) : Byte := s.regs[r]

/-- Write of `V[r]` (R12, R20). -/
def State.setReg (s : State) (r : Reg) (b : Byte) : State := { s with regs := s.regs.set r b }

/-- Write of the index register (R22). -/
def State.setI (s : State) (w : Word) : State := { s with i := w }

/-- Write of the program counter (R23). -/
def State.setPc (s : State) (w : Word) : State := { s with pc := w }

/-- The stack count `sp` (R26). -/
abbrev State.sp (s : State) : Nat := s.stack.length

/-! ## Faults -/

/-- What an instruction's check reports: a cause and the offending value (R12 `raise Fault(cause, info)`). -/
structure Problem where
  cause : FaultCause
  info  : Nat
  deriving DecidableEq, Repr

/-- The record of a fault raised by instruction `i` (R251, R252). Within an instruction `pc` is its address plus 2 (R122),
and its opcode is the word that encodes it (log entry 29). -/
def faultRecord (i : Instr) (p : Problem) (s : State) : FaultRecord where
  cause := p.cause
  addr := s.pc - 2
  opcode := some (encode i)
  info := p.info

/-- Raise a fault (R251): the machine stops with the record and no state is given (R126, R254). -/
def raise (i : Instr) (p : Problem) (s : State) : Result := .fault (.raised (faultRecord i p s))

/-- Checks before writes (R126): the first problem is raised, and only without one the instruction's effect happens. -/
def guarded (i : Instr) (check : Option Problem) (s t : State) : Result :=
  match check with
  | some p => raise i p s
  | none => .next t

/-- Fault entry as the state sees it (R251): the record is written, `run_state` becomes FAULTED, the record is sent. -/
def State.enterFault (s : State) (r : FaultRecord) : State :=
  { s with runState := .faulted r, out := .fault r :: s.out }

/-- The fault record, empty unless FAULTED (R32). -/
def State.faultRecord? (s : State) : Option FaultRecord :=
  match s.runState with
  | .faulted r => some r
  | _ => none

/-! ## Memory -/

/-- The check of a byte read (R63). -/
def readCheck (a : Nat) : Option Problem :=
  if a < Config.memSize then none else some ⟨.addressOutOfBounds, a⟩

/-- The checks of a byte write, in R64's order. -/
def writeCheck (a : Nat) : Option Problem :=
  if Config.memSize ≤ a then some ⟨.addressOutOfBounds, a⟩
  else if a < Config.fontSize then some ⟨.fontWrite, a⟩
  else none

/-- The bound of a run of `k` bytes at `a`: nothing to check for an empty run; otherwise the first address above 4095
is reported (R66, R196, R211). -/
def runCheck (a k : Nat) : Option Problem :=
  if 0 < k ∧ Config.memSize < a + k then some ⟨.addressOutOfBounds, max a Config.memSize⟩ else none

/-- R196 for a run that is written: the bound, then the font. -/
def writeRunCheck (a k : Nat) : Option Problem :=
  match runCheck a k with
  | some p => some p
  | none => if a < Config.fontSize then some ⟨.fontWrite, a⟩ else none

/-- Store a run of bytes at consecutive addresses. -/
def State.storeRun (s : State) (a : Nat) (bs : List Byte) : State := { s with mem := s.mem.writeList a bs }

/-- `LD Vx, [I]`'s transfer (R195): registers 0 to `x` from consecutive addresses. -/
def State.loadRegs (s : State) (a : Nat) (x : Reg) : State :=
  { s with regs := Vector.ofFn fun r : Reg => if r ≤ x then s.mem.byte (a + r.val) else s.reg r }

/-- Registers 0 to `x`, in order (R194). -/
def State.regsUpTo (s : State) (x : Reg) : List Byte := s.regs.toList.take (x.val + 1)

/-! ## Fetch -/

/-- The fetch bound (R65, R121): both bytes must exist. -/
def fetchCheck (pc : Word) : Option Problem :=
  if pc.toNat + 1 < Config.memSize then none else some ⟨.addressOutOfBounds, pc.toNat⟩

/-- The fetched word: big-endian (R65, R67, R121). -/
def State.fetchWord (s : State) : Word := wordOfBytes (s.mem.byte s.pc.toNat) (s.mem.byte (s.pc.toNat + 1))

/-- The record of a fetch fault: no opcode was read (R121, R252). -/
def fetchFault (p : Problem) (s : State) : FaultRecord where
  cause := p.cause
  addr := s.pc
  opcode := none
  info := p.info

/-- The record of an illegal encoding (R97, R120, R253): `addr` is where it was fetched. -/
def illegalFault (op : Word) (s : State) : FaultRecord where
  cause := .unknownOpcode
  addr := s.pc
  opcode := some op
  info := op.toNat

/-! ## Control transfer -/

/-- `CheckTarget` (R148), in its order. -/
def checkTarget (t : Nat) : Option Problem :=
  if Config.memSize ≤ t then some ⟨.addressOutOfBounds, t⟩
  else if t < Config.progBase then some ⟨.reservedTarget, t⟩
  else none

/-- The room for a push (R142). -/
def pushCheck (s : State) (info : Nat) : Option Problem :=
  if Config.stackDepth ≤ s.sp then some ⟨.stackOverflow, info⟩ else none

/-- Push (R26, R142). -/
def State.push (s : State) (w : Word) : State := { s with stack := w :: s.stack }

/-- Skip the next instruction when a condition holds (R149). -/
def State.skipIf (s : State) (c : Bool) : State := if c then s.setPc (s.pc + 2) else s

/-! ## The byte source and the output ports -/

/-- The byte the source will answer (R171): the next listed answer, else a free value. -/
def State.nextByte (s : State) : Byte :=
  match s.randQueue with
  | b :: _ => b
  | [] => Config.freeByte s.randDrawn

/-- One byte has been taken (R171). -/
def State.takeByte (s : State) : State := { s with randQueue := s.randQueue.tail, randDrawn := s.randDrawn + 1 }

/-- Send an event (R10). -/
def State.emit (s : State) (e : OutEvent) : State := { s with out := e :: s.out }

/-- `emit start_tone; tone <- 1` (R37, R235). -/
def State.startTone (s : State) : State := { s.emit .startTone with tone := true }

/-- `emit stop_tone; tone <- 0` (R37, R273). -/
def State.stopTone (s : State) : State := { s.emit .stopTone with tone := false }

end Sys2Proof.Machine
end

