-- ==== Sys2Proof/Machine/Operands.lean ====
section
/-! DEFINITION. Operand forms: the effective address of an index-register access, key codes, glyph numbers, decimal digits
and sprite geometry (spec 43_index_memory.md, 44_display.md, 45_keypad_timers.md). -/

namespace Sys2Proof.Machine

/-- The effective address `I` + offset, without wrap (spec 43_index_memory.md, R60, R70). -/
abbrev State.ea (s : State) (off : Nat) : Nat := s.i.toNat + off

/-- The address a BNNN names: NNN + `V[0]`, without wrap (R147). -/
abbrev State.indexedTarget (s : State) (nnn : BitVec 12) : Nat := nnn.toNat + (s.reg 0).toNat

/-- The sum of FX1E, without wrap (R191). -/
abbrev State.indexSum (s : State) (x : Reg) : Nat := s.i.toNat + (s.reg x).toNat

/-- The check of FX1E: the sum must fit `I` (R191). -/
def indexSumCheck (sum : Nat) : Option Problem := if 65535 < sum then some ⟨.indexOverflow, sum⟩ else none

/-- The check of FX29's glyph number (R192): the whole register is tested. -/
def glyphCheck (b : Byte) : Option Problem := if 15 < b.toNat then some ⟨.glyphIndexRange, b.toNat⟩ else none

/-- The address of a glyph (R192): glyph n at byte offset 5n. -/
def glyphAddr (b : Byte) : Word := BitVec.ofNat 16 (Config.glyphBytes * b.toNat)

/-- The check of a key code (R236): the whole register is the code. -/
def keyCheck (b : Byte) : Option Problem := if 15 < b.toNat then some ⟨.keyCodeRange, b.toNat⟩ else none

/-- Is the key with this code held? (R36, R230) -/
def State.keyHeld (s : State) (b : Byte) : Bool := s.keysHeld.getLsbD b.toNat

/-- The 3 decimal digits of a byte: hundreds, tens, ones (R193). -/
def bcdDigits (b : Byte) : List Byte :=
  [BitVec.ofNat 8 (b.toNat / 100), BitVec.ofNat 8 (b.toNat / 10 % 10), BitVec.ofNat 8 (b.toNat % 10)]

/-- The pre-shift value of 8XY6 and 8XYE: `V[Y]` in legacy mode, else `V[X]` (R168, R170). -/
def State.shiftSource (s : State) (x y : Reg) : Byte := if s.legacy then s.reg y else s.reg x

/-- The legacy increment of `I` after FX55 and FX65 (R194, R195, R197). -/
def State.legacyAdvance (s : State) (x : Reg) : State :=
  if s.legacy then s.setI (s.i + BitVec.ofNat 16 (x.val + 1)) else s

/-! ## Sprites -/

/-- The sprite's left column (R211, R212). -/
abbrev State.spriteCol (s : State) (x : Reg) : Nat := (s.reg x).toNat % Config.dispW

/-- The sprite's top row (R211, R212). -/
abbrev State.spriteRow (s : State) (y : Reg) : Nat := (s.reg y).toNat % Config.dispH

/-- A sprite byte with its left pixel as bit 7 (R213). -/
def orientSprite (b : Byte) : Byte := if Config.spriteMsbLeft then b else b.reverse

/-- A sprite byte laid on a row of the screen from column `x0`; columns past the right edge fall off (R211). -/
def spriteLine (b : Byte) (x0 : Nat) : BitVec 64 := ((orientSprite b).setWidth 64 <<< 56) >>> x0

/-- The pixel in row `y`, column `x` (R34). -/
def FrameBuffer.pixel (fb : FrameBuffer) (y x : Nat) : Bool := if h : y < 32 then fb[y].getMsbD x else false

/-- Draw sprite bytes from row `y` down (R211): each row is exclusive-ored, rows past the bottom edge are not drawn, and
`hit` says whether a lit pixel has been turned off. -/
def drawRows (x0 : Nat) : List Byte → Nat → FrameBuffer → Bool → FrameBuffer × Bool
  | [], _, fb, hit => (fb, hit)
  | b :: bs, y, fb, hit =>
    if h : y < 32 then
      drawRows x0 bs (y + 1) (fb.set y (fb[y] ^^^ spriteLine b x0)) (hit || (fb[y] &&& spriteLine b x0) != 0)
    else drawRows x0 bs (y + 1) fb hit

end Sys2Proof.Machine
end

