-- ==== Sys2Proof/Machine/Flags.lean ====
section
/-! DEFINITION. The flag values of spec 10_state.md R21 and 42_alu.md R172, R173. -/

namespace Sys2Proof.Machine

/-- A flag as the byte `VF` receives: 1 or 0 (R21). -/
def flagByte (b : Bool) : Byte := if b then 1 else 0

/-- The carry of 8XY4: the unwrapped sum exceeds 255 (R166, R173). -/
def carryOf (a b : Byte) : Bool := decide (255 < a.toNat + b.toNat)

/-- "No borrow" of a subtraction: minuend ≥ subtrahend (R167, R169, R173). -/
def noBorrow (minuend subtrahend : Byte) : Bool := decide (subtrahend.toNat ≤ minuend.toNat)

/-- The bit a right shift by one loses: bit 0 (R168). -/
def shiftedOutRight (v : Byte) : Bool := v.getLsbD 0

/-- The bit a left shift by one loses: bit 7 (R170). -/
def shiftedOutLeft (v : Byte) : Bool := v.getLsbD 7

/-- Write a result and then the flag, the flag last (R172, decision D7, log entry 13). -/
def State.setResultFlag (s : State) (x : Reg) (r : Byte) (f : Bool) : State := (s.setReg x r).setReg VF (flagByte f)

end Sys2Proof.Machine
end

