-- ==== Sys2Proof/Machine/Alu.lean ====
section
/-! DEFINITION. Register load, arithmetic, logic, shift and random instructions (spec 42_alu.md). None can fault. -/

namespace Sys2Proof.Machine

/-- 6XNN (R160). -/
def execLdImm (x : Reg) (nn : Byte) (s : State) : Result := .next (s.setReg x nn)

/-- 7XNN (R161): modulo 256, no flag. -/
def execAddImm (x : Reg) (nn : Byte) (s : State) : Result := .next (s.setReg x (s.reg x + nn))

/-- 8XY0 (R162). -/
def execLdReg (x y : Reg) (s : State) : Result := .next (s.setReg x (s.reg y))

/-- 8XY1 (R163). -/
def execOrReg (x y : Reg) (s : State) : Result := .next (s.setResultFlag x (s.reg x ||| s.reg y) false)

/-- 8XY2 (R164). -/
def execAndReg (x y : Reg) (s : State) : Result := .next (s.setResultFlag x (s.reg x &&& s.reg y) false)

/-- 8XY3 (R165). -/
def execXorReg (x y : Reg) (s : State) : Result := .next (s.setResultFlag x (s.reg x ^^^ s.reg y) false)

/-- 8XY4 (R166). -/
def execAddReg (x y : Reg) (s : State) : Result :=
  .next (s.setResultFlag x (s.reg x + s.reg y) (carryOf (s.reg x) (s.reg y)))

/-- 8XY5 (R167). -/
def execSubReg (x y : Reg) (s : State) : Result :=
  .next (s.setResultFlag x (s.reg x - s.reg y) (noBorrow (s.reg x) (s.reg y)))

/-- 8XY6 (R168). -/
def execShr (x y : Reg) (s : State) : Result :=
  .next (s.setResultFlag x (s.shiftSource x y >>> 1) (shiftedOutRight (s.shiftSource x y)))

/-- 8XY7 (R169). -/
def execSubn (x y : Reg) (s : State) : Result :=
  .next (s.setResultFlag x (s.reg y - s.reg x) (noBorrow (s.reg y) (s.reg x)))

/-- 8XYE (R170). -/
def execShl (x y : Reg) (s : State) : Result :=
  .next (s.setResultFlag x (s.shiftSource x y <<< 1) (shiftedOutLeft (s.shiftSource x y)))

/-- CXNN (R171): exactly one byte is taken. -/
def execRnd (x : Reg) (nn : Byte) (s : State) : Result := .next (s.takeByte.setReg x (s.nextByte &&& nn))

end Sys2Proof.Machine
end

