-- ==== Sys2Proof/Machine/ControlFlow.lean ====
section
/-! DEFINITION. Control transfer (spec 41_control_flow.md). Each meaning runs with `pc` = the instruction's address + 2. -/

namespace Sys2Proof.Machine

/-- 00EE (R140). -/
def execRet (s : State) : Result :=
  match s.stack with
  | [] => raise .ret ⟨.stackUnderflow, 0⟩ s
  | a :: rest => .next { s with stack := rest, pc := a }

/-- 1NNN (R141). -/
def execJp (nnn : BitVec 12) (s : State) : Result :=
  guarded (.jp nnn) (checkTarget nnn.toNat) s (s.setPc (nnn.setWidth 16))

/-- 2NNN (R142): the pushed address is the post-fetch counter. -/
def execCall (nnn : BitVec 12) (s : State) : Result :=
  guarded (.call nnn) ((checkTarget nnn.toNat).or (pushCheck s nnn.toNat)) s ((s.push s.pc).setPc (nnn.setWidth 16))

/-- 3XNN (R143). -/
def execSeImm (x : Reg) (nn : Byte) (s : State) : Result := .next (s.skipIf (s.reg x == nn))

/-- 4XNN (R144). -/
def execSneImm (x : Reg) (nn : Byte) (s : State) : Result := .next (s.skipIf (s.reg x != nn))

/-- 5XY0 (R145). -/
def execSeReg (x y : Reg) (s : State) : Result := .next (s.skipIf (s.reg x == s.reg y))

/-- 9XY0 (R146). -/
def execSneReg (x y : Reg) (s : State) : Result := .next (s.skipIf (s.reg x != s.reg y))

/-- BNNN (R147). -/
def execJpV0 (nnn : BitVec 12) (s : State) : Result :=
  guarded (.jpV0 nnn) (checkTarget (s.indexedTarget nnn)) s (s.setPc (BitVec.ofNat 16 (s.indexedTarget nnn)))

end Sys2Proof.Machine
end

