-- ==== Sys2Proof/Machine/Display.lean ====
section
/-! DEFINITION. The display instructions (spec 44_display.md). -/

namespace Sys2Proof.Machine

/-- 00E0 (R210). -/
def execCls (s : State) : Result := .next { s with fb := Vector.replicate 32 0, dirty := true }

/-- The state a drawn sprite leaves (R211): the origin is read before `VF` is written (decision D12, log entry 14). -/
def State.drawSprite (s : State) (x y : Reg) (n : BitVec 4) : State :=
  let d := drawRows (s.spriteCol x) (s.mem.bytes (s.ea 0) n.toNat) (s.spriteRow y) s.fb false
  { s.setReg VF (flagByte d.2) with fb := d.1, dirty := true }

/-- DXYN (R211): the whole run of sprite bytes is checked first (decision D13, log entry 15). -/
def execDrw (x y : Reg) (n : BitVec 4) (s : State) : Result :=
  guarded (.drw x y n) (runCheck (s.ea 0) n.toNat) s (s.drawSprite x y n)

end Sys2Proof.Machine
end

