-- ==== Sys2Proof/Machine/IndexMemory.lean ====
section
/-! DEFINITION. The index register and memory instructions (spec 43_index_memory.md). -/

namespace Sys2Proof.Machine

/-- ANNN (R190). -/
def execLdI (nnn : BitVec 12) (s : State) : Result := .next (s.setI (nnn.setWidth 16))

/-- FX1E (R191). -/
def execAddI (x : Reg) (s : State) : Result :=
  guarded (.addI x) (indexSumCheck (s.indexSum x)) s (s.setI (BitVec.ofNat 16 (s.indexSum x)))

/-- FX29 (R192). -/
def execLdF (x : Reg) (s : State) : Result :=
  guarded (.ldF x) (glyphCheck (s.reg x)) s (s.setI (glyphAddr (s.reg x)))

/-- FX33 (R193). -/
def execLdB (x : Reg) (s : State) : Result :=
  guarded (.ldB x) (writeRunCheck (s.ea 0) 3) s (s.storeRun (s.ea 0) (bcdDigits (s.reg x)))

/-- FX55 (R194). -/
def execLdMemVx (x : Reg) (s : State) : Result :=
  guarded (.ldMemVx x) (writeRunCheck (s.ea 0) (x.val + 1)) s
    ((s.storeRun (s.ea 0) (s.regsUpTo x)).legacyAdvance x)

/-- FX65 (R195). -/
def execLdVxMem (x : Reg) (s : State) : Result :=
  guarded (.ldVxMem x) (runCheck (s.ea 0) (x.val + 1)) s ((s.loadRegs (s.ea 0) x).legacyAdvance x)

end Sys2Proof.Machine
end

