-- ==== Sys2Proof/Machine/KeypadTimers.lean ====
section
/-! DEFINITION. The keypad and timer instructions (spec 45_keypad_timers.md). -/

namespace Sys2Proof.Machine

/-- EX9E (R230). -/
def execSkp (x : Reg) (s : State) : Result :=
  guarded (.skp x) (keyCheck (s.reg x)) s (s.skipIf (s.keyHeld (s.reg x)))

/-- EXA1 (R231). -/
def execSknp (x : Reg) (s : State) : Result :=
  guarded (.sknp x) (keyCheck (s.reg x)) s (s.skipIf (!s.keyHeld (s.reg x)))

/-- FX07 (R233). -/
def execLdVxDT (x : Reg) (s : State) : Result := .next (s.setReg x s.dt)

/-- FX0A's effect (R232): take the key event, or rewind to fetch this instruction again. -/
def State.takeKey (s : State) (x : Reg) : State :=
  match s.keyEvent with
  | some k => { s.setReg x (BitVec.ofNat 8 k.val) with keyEvent := none }
  | none => s.setPc (s.pc - 2)

/-- FX0A (R232). -/
def execLdVxK (x : Reg) (s : State) : Result := .next (s.takeKey x)

/-- FX15 (R234). -/
def execLdDTVx (x : Reg) (s : State) : Result := .next { s with dt := s.reg x }

/-- FX18 (R235): `start_tone` only for a nonzero value. -/
def execLdSTVx (x : Reg) (s : State) : Result :=
  .next (if s.reg x = 0 then { s with st := 0 } else { s.startTone with st := s.reg x })

end Sys2Proof.Machine
end

