-- ==== Sys2Proof/Machine/Frame.lean ====
section
/-! DEFINITION. The frame scheduler's phases (spec 60_exceptions.md R270 to R277). A model step is one instruction slot:
phase 1 comes with the first slot of a frame, phases 3 to 5 with its tenth (log entry 6). Phase 6 is time only (R277). -/

namespace Sys2Proof.Machine

/-- The host's record for the current frame (R270, log entry 8). -/
abbrev State.hostNow (s : State) : HostIn := s.hostQueue.headD s.hostIdle

/-- Phase 1 (R271). -/
def phaseInput (s : State) : State :=
  { s with keysHeld := s.hostNow.keysHeld, keyEvent := s.hostNow.keyEvent, slot := 0 }

/-- Does the next slot open a frame? After reset no slot has run; after a frame all of them have (R33, R270). -/
def State.frameDue (s : State) : Bool := s.slot == 0 || decide (Config.ipf ≤ s.slot)

/-- Before a slot: phase 1 if a frame begins. -/
def beginSlot (s : State) : State := if s.frameDue then phaseInput s else s

/-- Phase 3 for the delay timer (R273). -/
def tickDelay (s : State) : State := if s.dt = 0 then s else { s with dt := s.dt - 1 }

/-- Phase 3 for the sound timer (R273): `stop_tone` exactly when it goes from 1 to 0. -/
def tickSound (s : State) : State :=
  if s.st = 0 then s
  else if s.st = 1 then { s.stopTone with st := 0 }
  else { s with st := s.st - 1 }

/-- Phase 3 (R273). -/
def phaseTimers (s : State) : State := tickSound (tickDelay s)

/-- Phase 4 (R274). -/
def phaseDisplay (s : State) : State := if s.dirty then { s.emit (.flush s.fb) with dirty := false } else s

/-- Phase 5 (R275): the stop request of this frame's record. The record is then used up. -/
def phaseStop (s : State) : State :=
  { s with
    runState := if s.hostNow.stopReq then .stopped else s.runState
    hostQueue := s.hostQueue.tail }

/-- Phases 3, 4 and 5, in this order (R270). -/
def endFrame (s : State) : State := phaseStop (phaseDisplay (phaseTimers s))

/-- One more slot has run (R33). -/
def countSlot (s : State) : State := { s with slot := s.slot + 1 }

/-- After a slot: count it, and after the tenth run phases 3 to 5 (R120, R270, R272). -/
def endSlot (s : State) : State := if Config.ipf ≤ s.slot + 1 then endFrame (countSlot s) else countSlot s

/-- Complete a slot on the instruction's answer: a fault ends the frame at once (R125, R276). -/
def finishSlot : Result → Result
  | .next t => .next (endSlot t)
  | .fault r => .fault r
  | .refused r => .refused r

end Sys2Proof.Machine
end

