-- ==== Sys2Proof/Machine/Reset.lean ====
section
/-! DEFINITION. Reset with its three inputs (spec 70_reset_and_hazards.md R300, R301, R302). `State.reset` is the case of
`LEGACY` = 0, the default font and the empty image. -/

namespace Sys2Proof.Machine

/-- The record of a load fault (R257, R301): `addr` is 512, the opcode is absent, `info` is the length. -/
def imageFault (image : List Byte) : FaultRecord where
  cause := .imageTooLarge
  addr := 512
  opcode := none
  info := image.length

/-- Memory after reset (R35, R300): the font, then the image if it fits; all else 0. -/
def loadedMemory (font : Vector Byte 80) (image : List Byte) : Memory :=
  Memory.ofBytes 0 font.toList ++
    (if image.length ≤ Config.progMax then Memory.ofBytes Config.progBase image else [])

/-- `Reset(LEGACY, FONT, IMAGE)` (R300): an image that is too long leaves the machine FAULTED (R301). -/
def State.resetWith (legacy : Bool) (font : Vector Byte 80) (image : List Byte) : State :=
  { State.reset with
    legacy := legacy
    mem := loadedMemory font image
    runState := if image.length ≤ Config.progMax then .running else .faulted (imageFault image) }

/-- The default font as the input of `resetWith` (R62). -/
def defaultFontVector : Vector Byte 80 := Vector.ofFn fun k : Fin 80 => defaultFont.getD k.val 0

end Sys2Proof.Machine
end

