-- ==== Sys2Proof/Machine/Step.lean ====
section
/-! DEFINITION. One step (spec 40_instruction_cycle.md R120, with the frame phases of 60_exceptions.md R270 around it), and
what the outside does to the machine. -/

namespace Sys2Proof.Machine

/-- Decode and execute a fetched word at `s`, whose `pc` is the word's address (R120, R122, R124). -/
def execWord (op : Word) (s : State) : Result :=
  match decode op with
  | .error _ => .fault (.raised (illegalFault op s))
  | .ok i => exec i (s.setPc (s.pc + 2))

/-- `Step()` (R120) on a running machine: fetch, advance, decode, execute. -/
def runInstr (s : State) : Result :=
  match fetchCheck s.pc with
  | some p => .fault (.raised (fetchFault p s))
  | none => execWord s.fetchWord s

/-- One step of the machine: one instruction slot with the frame phases that fall on it. FAULTED answers its record and
STOPPED stays as it is: both are terminal (R31, R254, R275, log entries 5, 7). -/
def step (s : State) : Host.Outcome State Fault Refusal :=
  match s.runState with
  | .running => finishSlot (runInstr (beginSlot s))
  | .faulted r => .fault (.raised r)
  | .stopped => .next s

/-- The state after an answer: a fault is entered (R251), phase 1 of its frame having happened (R270, R276), so `run_state` and
the fault record can be read (log entry 5). -/
def stateAfter (s : State) : Result → State
  | .next t => t
  | .fault (.raised r) => if s.runState = .faulted r then s else (beginSlot s).enterFault r
  | .refused _ => s

/-- A step as a total function on states, FAULTED and STOPPED being fixed points. -/
def tick (s : State) : State := stateAfter s (step s)

/-- `k` slots. -/
def ticks : Nat → State → State
  | 0, s => s
  | k + 1, s => ticks k (tick s)

/-- `Frame` (R270, R272): the ten slots of a frame with its phases; less if a slot faults (R276). -/
def frame (s : State) : State := ticks Config.ipf s

/-- Place an instruction's word, numbered as the opcode table numbers it, where the next step fetches (log entry 4). -/
def State.withFetchWord (s : State) (nbits w : Nat) : State :=
  { s with mem := if s.pc.toNat + 1 < Config.memSize then s.mem.writeList s.pc.toNat (tableBytes nbits w) else s.mem }

end Sys2Proof.Machine
end

