-- ==== Sys2Proof/Safety.lean ====
section
/-! DEFINITION. The terms claims use: the parts of the state one by one, what is unchanged but for named parts, the
invariant of spec 10_state.md R24, R26, R33 and of the memory's form, and a run without a fault. -/

namespace Sys2Proof.Machine

/-- One piece of the state: a register, a memory byte, or any other field. -/
inductive Part where
  | reg (r : Reg)
  | index
  | pc
  | stack
  | delay
  | sound
  | legacy
  | dirty
  | runState
  | slot
  | screen
  | byte (a : Nat)
  | keysHeld
  | keyEvent
  | tone
  | hostQueue
  | hostIdle
  | randQueue
  | randDrawn
  | out
  deriving DecidableEq, Repr

/-- The part has the same value in both states; memory is read byte by byte. -/
def Part.same (s t : State) : Part → Prop
  | .reg r => t.reg r = s.reg r
  | .index => t.i = s.i
  | .pc => t.pc = s.pc
  | .stack => t.stack = s.stack
  | .delay => t.dt = s.dt
  | .sound => t.st = s.st
  | .legacy => t.legacy = s.legacy
  | .dirty => t.dirty = s.dirty
  | .runState => t.runState = s.runState
  | .slot => t.slot = s.slot
  | .screen => t.fb = s.fb
  | .byte a => t.mem.byte a = s.mem.byte a
  | .keysHeld => t.keysHeld = s.keysHeld
  | .keyEvent => t.keyEvent = s.keyEvent
  | .tone => t.tone = s.tone
  | .hostQueue => t.hostQueue = s.hostQueue
  | .hostIdle => t.hostIdle = s.hostIdle
  | .randQueue => t.randQueue = s.randQueue
  | .randDrawn => t.randDrawn = s.randDrawn
  | .out => t.out = s.out

/-- Every part but the listed ones is unchanged from `s` to `t`: an instruction's frame. -/
def UnchangedBut (parts : List Part) (s t : State) : Prop := ∀ p, p ∉ parts → p.same s t

/-- The `k` memory bytes from address `a` up, as parts. -/
def byteParts (a k : Nat) : List Part := (List.range k).map fun off => .byte (a + off)

/-- The registers 0 to `x`, as parts. -/
def regPartsUpTo (x : Reg) : List Part := ((List.finRange 16).filter fun r => decide (r ≤ x)).map .reg

/-- A return address a call can have pushed: a post-fetch counter (R24, R140). -/
def isReturnAddress (w : Word) : Bool := decide (514 ≤ w.toNat) && decide (w.toNat ≤ 4096)

/-- The invariant of a running machine at an instruction boundary: the range of `pc` (R24), the depth and contents of the
call stack (R24, R26), the slot count (R33), memory in its canonical form (R60). -/
abbrev Inv (s : State) : Prop :=
  512 ≤ s.pc.toNat ∧ s.pc.toNat ≤ 4098 ∧ s.sp ≤ 12 ∧ s.stack.all isReturnAddress = true ∧ s.slot ≤ 10 ∧ s.mem.wf

/-- No fault within `k` slots: the premise R254 asks of a claim about a run's final state. -/
def NoFaultWithin (k : Nat) (s : State) : Prop := (ticks k s).faultRecord? = none

end Sys2Proof.Machine
end

