-- ==== Sys2Proof/Certificates/Slice0/Obligations.lean ====
section
/-! DEFINITION. The statements for the provers, each about the machine of spec/ and none about a program. A clause that rests on
a decision of spec 92_eei_decisions.md, or on the model's own choice, says so and names the decision and the log entry. -/

open Sys2Proof Sys2Proof.Machine

namespace Sys2Proof.Machine

/-- The instruction rows of R253's table, as conditions on the state and the operands: the cause and the value reported,
or nothing. Inside an instruction R256's order holds. -/
def faultTable (s : State) : Instr → Option (FaultCause × Nat)
  | .ret => if s.sp = 0 then some (.stackUnderflow, 0) else none
  | .jp n => if n.toNat < 512 then some (.reservedTarget, n.toNat) else none
  | .call n =>
    if n.toNat < 512 then some (.reservedTarget, n.toNat)
    else if 12 ≤ s.sp then some (.stackOverflow, n.toNat)
    else none
  | .jpV0 n =>
    if 4095 < n.toNat + (s.reg 0).toNat then some (.addressOutOfBounds, n.toNat + (s.reg 0).toNat)
    else if n.toNat + (s.reg 0).toNat < 512 then some (.reservedTarget, n.toNat + (s.reg 0).toNat)
    else none
  | .addI x =>
    if 65535 < s.i.toNat + (s.reg x).toNat then some (.indexOverflow, s.i.toNat + (s.reg x).toNat) else none
  | .ldF x => if 15 < (s.reg x).toNat then some (.glyphIndexRange, (s.reg x).toNat) else none
  | .ldB _ =>
    if 4095 < s.i.toNat + 2 then some (.addressOutOfBounds, max s.i.toNat 4096)
    else if s.i.toNat < 80 then some (.fontWrite, s.i.toNat)
    else none
  | .ldMemVx x =>
    if 4095 < s.i.toNat + x.val then some (.addressOutOfBounds, max s.i.toNat 4096)
    else if s.i.toNat < 80 then some (.fontWrite, s.i.toNat)
    else none
  | .ldVxMem x => if 4095 < s.i.toNat + x.val then some (.addressOutOfBounds, max s.i.toNat 4096) else none
  | .drw _ _ n =>
    if 0 < n.toNat ∧ 4095 < s.i.toNat + n.toNat - 1 then some (.addressOutOfBounds, max s.i.toNat 4096) else none
  | .skp x => if 15 < (s.reg x).toNat then some (.keyCodeRange, (s.reg x).toNat) else none
  | .sknp x => if 15 < (s.reg x).toNat then some (.keyCodeRange, (s.reg x).toNat) else none
  | .cls | .seImm _ _ | .sneImm _ _ | .seReg _ _ | .sneReg _ _ | .ldImm _ _ | .addImm _ _ => none
  | .ldReg _ _ | .orReg _ _ | .andReg _ _ | .xorReg _ _ | .addReg _ _ | .subReg _ _ => none
  | .shr _ _ | .subn _ _ | .shl _ _ | .ldI _ | .rnd _ _ => none
  | .ldVxDT _ | .ldVxK _ | .ldDTVx _ | .ldSTVx _ => none

/-- R211's drawn sprite pixel at a row and column of the screen: inside the sprite's box from its origin (column `V[X]` mod
64, row `V[Y]` mod 32, R212), the sprite byte's bit there, bit 7 being the left one (R213). -/
def spriteLit (s : State) (x y : Reg) (n : BitVec 4) (row col : Nat) : Bool :=
  decide ((s.reg y).toNat % 32 ≤ row ∧ row < (s.reg y).toNat % 32 + n.toNat ∧
    (s.reg x).toNat % 64 ≤ col ∧ col < (s.reg x).toNat % 64 + 8) &&
  (s.mem.byte (s.i.toNat + (row - (s.reg y).toNat % 32))).getLsbD (7 - (col - (s.reg x).toNat % 64))

/-- The instructions that define a flag (R21): `VF` is written as a side effect. -/
def definesFlag : Instr → Bool
  | .orReg _ _ | .andReg _ _ | .xorReg _ _ | .addReg _ _ | .subReg _ _ | .shr _ _ | .subn _ _ | .shl _ _ => true
  | .drw _ _ _ => true
  | .cls | .ret | .jp _ | .call _ | .seImm _ _ | .sneImm _ _ | .seReg _ _ | .sneReg _ _ | .ldImm _ _ => false
  | .addImm _ _ | .ldReg _ _ | .ldI _ | .jpV0 _ | .rnd _ _ | .skp _ | .sknp _ | .ldVxDT _ | .ldVxK _ => false
  | .ldDTVx _ | .ldSTVx _ | .addI _ | .ldF _ | .ldB _ | .ldMemVx _ | .ldVxMem _ => false

/-- The registers an instruction's X field names as its destination (42_alu.md, 43_index_memory.md, 45_keypad_timers.md). -/
def namesDestination (r : Reg) : Instr → Bool
  | .ldImm x _ | .addImm x _ | .rnd x _ | .ldVxDT x | .ldVxK x => r == x
  | .ldReg x _ | .orReg x _ | .andReg x _ | .xorReg x _ | .addReg x _ | .subReg x _ => r == x
  | .shr x _ | .subn x _ | .shl x _ => r == x
  | .ldVxMem x => decide (r ≤ x)
  | .cls | .ret | .jp _ | .call _ | .seImm _ _ | .sneImm _ _ | .seReg _ _ | .sneReg _ _ | .ldI _ | .jpV0 _ => false
  | .drw _ _ _ | .skp _ | .sknp _ | .ldDTVx _ | .ldSTVx _ | .addI _ | .ldF _ | .ldB _ | .ldMemVx _ => false

/-- How many flushes a list of events holds (R274). -/
def flushCount (events : List OutEvent) : Nat :=
  events.countP fun e => match e with
    | .flush _ => true
    | .startTone | .stopTone | .fault _ => false

end Sys2Proof.Machine

/-! ## Encoding -/

/-- Words written out from R95's patterns decode to the instruction they stand for, one or more for each of the 16 families
(top nibbles, R14); and a word that fits no row of its family is rejected with itself (R97). -/
def Obligations.SampleWordsDecode : Prop :=
  decode 0x00E0 = .ok .cls ∧ decode 0x00EE = .ok .ret ∧ decode 0x1204 = .ok (.jp 0x204) ∧
  decode 0x2ABC = .ok (.call 0xABC) ∧ decode 0x3100 = .ok (.seImm 1 0) ∧ decode 0x4A05 = .ok (.sneImm 10 5) ∧
  decode 0x51E0 = .ok (.seReg 1 14) ∧ decode 0x600A = .ok (.ldImm 0 10) ∧ decode 0x7F81 = .ok (.addImm 15 0x81) ∧
  decode 0x8126 = .ok (.shr 1 2) ∧ decode 0x9120 = .ok (.sneReg 1 2) ∧ decode 0xA300 = .ok (.ldI 0x300) ∧
  decode 0xBF01 = .ok (.jpV0 0xF01) ∧ decode 0xC30F = .ok (.rnd 3 0x0F) ∧ decode 0xD125 = .ok (.drw 1 2 5) ∧
  decode 0xE59E = .ok (.skp 5) ∧ decode 0xF30A = .ok (.ldVxK 3) ∧ decode 0xF255 = .ok (.ldMemVx 2) ∧
  decode 0x8128 = .error (.illegal 0x8128)

/-- Every instruction, with every operand at every value its field admits, decodes from its own word (R91, R92, R95). -/
def Obligations.DecodeOfEncode : Prop := ∀ i : Instr, decode (encode i) = .ok i

/-- A word that decodes is the word of what it decodes to: no bit of a legal encoding is ignored (R98: in 8XY6 and 8XYE the Y
field is kept although non-legacy mode does not read the register). -/
def Obligations.EncodeOfDecode : Prop := ∀ (op : Word) (i : Instr), decode op = .ok i → encode i = op

/-- The decoder accepts exactly the words R95's masks and matches describe, and no word fits two rows of the 34 (R95, R97). -/
def Obligations.DecoderFollowsMaskTable : Prop :=
  (∀ op : Word, legalOpcode op = true → ∃ i, decode op = .ok i ∧ i.row.fits op = true) ∧
  (∀ op : Word, legalOpcode op = false → decode op = .error (.illegal op)) ∧
  opcodeRows.length = 34 ∧
  (∀ (op : Word) (r q : OpcodeRow), r ∈ opcodeRows → q ∈ opcodeRows → r.fits op = true → q.fits op = true → r = q)

/-! ## The step and its faults -/

/-- R120: a running machine whose bytes at `pc` decode to `i` runs `i` with `pc` past its two bytes. That the model's step also
carries the frame phases that fall on the slot (phase 1 before it when a frame begins, the end of a frame after the tenth) is
the model's choice, on decision D28 (log entry 6). -/
def Obligations.StepRunsDecodedInstruction : Prop :=
  ∀ (s : State) (i : Instr), s.runState = .running → s.pc.toNat ≤ 4094 →
    decode (wordOfBytes (s.mem.byte s.pc.toNat) (s.mem.byte (s.pc.toNat + 1))) = .ok i →
    step s = finishSlot (exec i ((beginSlot s).setPc (s.pc + 2)))

/-- R121: the fetched word is `Mem[a]` × 256 + `Mem[a+1]`; above 4094 the fetch faults with no opcode in the record (decision
D27, log entry 24). -/
def Obligations.FetchIsBigEndianAndBounded : Prop :=
  ∀ s : State,
    (s.pc.toNat ≤ 4094 →
      s.fetchWord.toNat = (s.mem.byte s.pc.toNat).toNat * 256 + (s.mem.byte (s.pc.toNat + 1)).toNat ∧
      runInstr s = execWord s.fetchWord s) ∧
    (4094 < s.pc.toNat → runInstr s = .fault (.raised ⟨.addressOutOfBounds, s.pc, none, s.pc.toNat⟩))

/-- R97, R252: a fetched word that no row matches stops the machine with its address and the raw word (the `info` field is
decision D4, log entry 5). -/
def Obligations.IllegalWordFaults : Prop :=
  ∀ s : State, s.runState = .running → s.pc.toNat ≤ 4094 → legalOpcode s.fetchWord = false →
    step s = .fault (.raised ⟨.unknownOpcode, s.pc, some s.fetchWord, s.fetchWord.toNat⟩)

/-- R251, R276: when a step faults, the record is written, `run_state` becomes FAULTED and the record is sent; nothing else
changes from the state phase 1 left, where the slot opened a frame, and no later frame phase happens. `tick` is the model's form
of it (decisions D3, D4, log entry 5). -/
def Obligations.FaultEntryWritesOnlyTheRecord : Prop :=
  ∀ (s : State) (r : FaultRecord), s.runState = .running → step s = .fault (.raised r) →
    (tick s).runState = .faulted r ∧ (tick s).out = .fault r :: s.out ∧
    UnchangedBut [.runState, .out] (beginSlot s) (tick s) ∧ step (tick s) = .fault (.raised r)

/-- FAULTED and STOPPED are terminal (R31, R254, R275): a FAULTED machine answers its record for ever, a STOPPED one keeps its
state. That a STOPPED machine's step answers the same state is the model's choice (log entry 7). -/
def Obligations.FaultedAndStoppedStay : Prop :=
  (∀ (s : State) (r : FaultRecord) (k : Nat), s.runState = .faulted r →
    step s = .fault (.raised r) ∧ ticks k s = s) ∧
  (∀ (s : State) (k : Nat), s.runState = .stopped → step s = .next s ∧ ticks k s = s)

/-- R253's table for the instructions: each faults exactly on its listed condition, with the listed cause, its own address and
word, and the offending value; on every other state and operands it completes. The causes 8 to 11, their order and the `info`
field are decisions D4, D6, D8, D9, D10, D11, D13 (log entries 15 to 19, 25). -/
def Obligations.FaultsExactlyByTheTable : Prop :=
  ∀ (i : Instr) (s : State),
    match faultTable s i with
    | some (c, n) => exec i s = .fault (.raised ⟨c, s.pc - 2, some (encode i), n⟩)
    | none => ∃ t, exec i s = .next t

/-- No instruction and no step is refused: the table of R95 is complete and each row has its effect (R99). -/
def Obligations.NothingIsRefused : Prop :=
  (∀ (i : Instr) (s : State) (r : Refusal), exec i s ≠ .refused r) ∧ (∀ (s : State) (r : Refusal), step s ≠ .refused r)

/-! ## Register load, arithmetic, logic, shift, random -/

/-- R160, R161: 6XNN and 7XNN write `V[X]` and nothing else; the sum is taken modulo 256 and sets no flag. -/
def Obligations.ImmediateLoadAndAdd : Prop :=
  ∀ (x : Reg) (nn : Byte) (s : State),
    (∃ t, exec (.ldImm x nn) s = .next t ∧ t.reg x = nn ∧ UnchangedBut [.reg x] s t) ∧
    (∃ t, exec (.addImm x nn) s = .next t ∧ (t.reg x).toNat = ((s.reg x).toNat + nn.toNat) % 256 ∧
      UnchangedBut [.reg x] s t)

/-- R162: 8XY0 copies `V[Y]` to `V[X]` and changes nothing else. -/
def Obligations.RegisterCopy : Prop :=
  ∀ (x y : Reg) (s : State), ∃ t, exec (.ldReg x y) s = .next t ∧ t.reg x = s.reg y ∧ UnchangedBut [.reg x] s t

/-- R163, R164, R165: the bitwise operation goes to `V[X]` and `VF` becomes 0. With X = F the flag is what stays (decision D7,
log entry 13). -/
def Obligations.LogicClearsFlag : Prop :=
  ∀ (x y : Reg) (s : State),
    (∃ t, exec (.orReg x y) s = .next t ∧ (x ≠ VF → t.reg x = s.reg x ||| s.reg y) ∧ t.reg VF = 0 ∧
      UnchangedBut [.reg x, .reg VF] s t) ∧
    (∃ t, exec (.andReg x y) s = .next t ∧ (x ≠ VF → t.reg x = s.reg x &&& s.reg y) ∧ t.reg VF = 0 ∧
      UnchangedBut [.reg x, .reg VF] s t) ∧
    (∃ t, exec (.xorReg x y) s = .next t ∧ (x ≠ VF → t.reg x = s.reg x ^^^ s.reg y) ∧ t.reg VF = 0 ∧
      UnchangedBut [.reg x, .reg VF] s t)

/-- R166: the sum modulo 256 goes to `V[X]`, and `VF` is 1 exactly when the unwrapped sum exceeds 255. With X = F the flag is
what stays (decision D7, log entry 13). -/
def Obligations.AddSetsCarry : Prop :=
  ∀ (x y : Reg) (s : State), ∃ t, exec (.addReg x y) s = .next t ∧
    (x ≠ VF → (t.reg x).toNat = ((s.reg x).toNat + (s.reg y).toNat) % 256) ∧
    t.reg VF = (if 255 < (s.reg x).toNat + (s.reg y).toNat then 1 else 0) ∧
    UnchangedBut [.reg x, .reg VF] s t

/-- R167, R169: 8XY5 and 8XY7 write (minuend − subtrahend + 256) mod 256, and `VF` is 1 exactly when minuend ≥ subtrahend. With
X = F the flag is what stays (decision D7, log entry 13). -/
def Obligations.SubtractSetsNoBorrow : Prop :=
  ∀ (x y : Reg) (s : State),
    (∃ t, exec (.subReg x y) s = .next t ∧
      (x ≠ VF → (t.reg x).toNat = ((s.reg x).toNat + 256 - (s.reg y).toNat) % 256) ∧
      t.reg VF = (if (s.reg y).toNat ≤ (s.reg x).toNat then 1 else 0) ∧ UnchangedBut [.reg x, .reg VF] s t) ∧
    (∃ t, exec (.subn x y) s = .next t ∧
      (x ≠ VF → (t.reg x).toNat = ((s.reg y).toNat + 256 - (s.reg x).toNat) % 256) ∧
      t.reg VF = (if (s.reg x).toNat ≤ (s.reg y).toNat then 1 else 0) ∧ UnchangedBut [.reg x, .reg VF] s t)

/-- R168, R170: the pre-shift value is `V[Y]` in legacy mode and `V[X]` otherwise; it is halved, or doubled modulo 256, into
`V[X]`, and the bit that leaves goes to `VF`. With X = F the flag is what stays (decision D7, log entry 13). -/
def Obligations.ShiftsMoveOneBit : Prop :=
  ∀ (x y : Reg) (s : State) (v : Byte), v = (if s.legacy then s.reg y else s.reg x) →
    (∃ t, exec (.shr x y) s = .next t ∧ (x ≠ VF → (t.reg x).toNat = v.toNat / 2) ∧
      (t.reg VF).toNat = v.toNat % 2 ∧ UnchangedBut [.reg x, .reg VF] s t) ∧
    (∃ t, exec (.shl x y) s = .next t ∧ (x ≠ VF → (t.reg x).toNat = v.toNat * 2 % 256) ∧
      (t.reg VF).toNat = v.toNat / 128 ∧ UnchangedBut [.reg x, .reg VF] s t)

/-- R171: the drawn byte and NN goes to `V[X]`, and exactly one byte is taken. The byte is the model's `nextByte`: the first
listed answer, else a free value of Config (log entry 9); the statement holds for every value of it. -/
def Obligations.RandomTakesOneByte : Prop :=
  ∀ (x : Reg) (nn : Byte) (s : State), ∃ t, exec (.rnd x nn) s = .next t ∧ t.reg x = s.nextByte &&& nn ∧
    (∀ b rest, s.randQueue = b :: rest → t.reg x = b &&& nn) ∧
    t.randQueue = s.randQueue.tail ∧ t.randDrawn = s.randDrawn + 1 ∧
    UnchangedBut [.reg x, .randQueue, .randDrawn] s t

/-- R21: an instruction that defines no flag leaves `VF` alone unless its X field (or FX65's range) names register F. -/
def Obligations.FlagRegisterWrittenOnlyWhereListed : Prop :=
  ∀ (i : Instr) (s t : State), definesFlag i = false → namesDestination VF i = false → exec i s = .next t →
    t.reg VF = s.reg VF

/-! ## Control transfer -/

/-- R143, R144, R145, R146, R149: the four register skips move `pc` on by 2 more exactly on their condition, and change nothing
else. -/
def Obligations.RegisterSkips : Prop :=
  ∀ (x y : Reg) (nn : Byte) (s : State),
    (∃ t, exec (.seImm x nn) s = .next t ∧ t.pc = (if s.reg x = nn then s.pc + 2 else s.pc) ∧
      UnchangedBut [.pc] s t) ∧
    (∃ t, exec (.sneImm x nn) s = .next t ∧ t.pc = (if s.reg x ≠ nn then s.pc + 2 else s.pc) ∧
      UnchangedBut [.pc] s t) ∧
    (∃ t, exec (.seReg x y) s = .next t ∧ t.pc = (if s.reg x = s.reg y then s.pc + 2 else s.pc) ∧
      UnchangedBut [.pc] s t) ∧
    (∃ t, exec (.sneReg x y) s = .next t ∧ t.pc = (if s.reg x ≠ s.reg y then s.pc + 2 else s.pc) ∧
      UnchangedBut [.pc] s t)

/-- R141: 1NNN sets `pc` to NNN and changes nothing else, for every target in the program area. -/
def Obligations.JumpSetsPc : Prop :=
  ∀ (n : BitVec 12) (s : State), 512 ≤ n.toNat →
    ∃ t, exec (.jp n) s = .next t ∧ t.pc.toNat = n.toNat ∧ UnchangedBut [.pc] s t

/-- R142: 2NNN pushes the post-fetch counter and goes to NNN; the twelfth nested call still succeeds. -/
def Obligations.CallPushesReturnAddress : Prop :=
  ∀ (n : BitVec 12) (s : State), 512 ≤ n.toNat → s.sp < 12 →
    ∃ t, exec (.call n) s = .next t ∧ t.stack = s.pc :: s.stack ∧ t.sp = s.sp + 1 ∧ t.pc.toNat = n.toNat ∧
      UnchangedBut [.pc, .stack] s t

/-- R140: 00EE pops the newest entry into `pc`, unchecked (decision D34, log entry 17), and changes nothing else. -/
def Obligations.ReturnPopsIntoPc : Prop :=
  ∀ (s : State) (a : Word) (rest : List Word), s.stack = a :: rest →
    ∃ t, exec .ret s = .next t ∧ t.pc = a ∧ t.stack = rest ∧ t.sp + 1 = s.sp ∧ UnchangedBut [.pc, .stack] s t

/-- R147: BNNN goes to NNN + `V[0]`, without wrap, and changes nothing else, for every sum in the program area. -/
def Obligations.JumpAddsV0 : Prop :=
  ∀ (n : BitVec 12) (s : State), 512 ≤ n.toNat + (s.reg 0).toNat → n.toNat + (s.reg 0).toNat ≤ 4095 →
    ∃ t, exec (.jpV0 n) s = .next t ∧ t.pc.toNat = n.toNat + (s.reg 0).toNat ∧ UnchangedBut [.pc] s t

/-- R140, R142: whatever a subroutine does, if it leaves the stack as the call made it then its return goes on after the call
with the stack as before the call. -/
def Obligations.ReturnUndoesCall : Prop :=
  ∀ (n : BitVec 12) (s t t' : State), exec (.call n) s = .next t → t'.stack = t.stack →
    ∃ u, exec .ret t' = .next u ∧ u.pc = s.pc ∧ u.stack = s.stack

/-- R26: only 2NNN and 00EE touch the call stack, by one entry. -/
def Obligations.OnlyCallAndReturnTouchStack : Prop :=
  ∀ (i : Instr) (s t : State), exec i s = .next t →
    t.stack = s.stack ∨ (i = .ret ∧ t.stack = s.stack.tail) ∨ (∃ n, i = .call n ∧ t.stack = s.pc :: s.stack)

/-! ## Index register and memory -/

/-- R190: ANNN sets `I` to NNN and changes nothing else, for every NNN. -/
def Obligations.LoadIndexImmediate : Prop :=
  ∀ (n : BitVec 12) (s : State), ∃ t, exec (.ldI n) s = .next t ∧ t.i.toNat = n.toNat ∧ UnchangedBut [.index] s t

/-- R191: FX1E adds `V[X]` to `I` without wrap and sets no flag; sums up to 65535 are stored (the fault above is decision D9, log
entry 18). -/
def Obligations.AddToIndex : Prop :=
  ∀ (x : Reg) (s : State), s.i.toNat + (s.reg x).toNat ≤ 65535 →
    ∃ t, exec (.addI x) s = .next t ∧ t.i.toNat = s.i.toNat + (s.reg x).toNat ∧ UnchangedBut [.index] s t

/-- R192: FX29 points `I` at glyph `V[X]`, 5 bytes a glyph, for glyph numbers 0 to 15. -/
def Obligations.GlyphAddressIsFiveTimes : Prop :=
  ∀ (x : Reg) (s : State), (s.reg x).toNat ≤ 15 →
    ∃ t, exec (.ldF x) s = .next t ∧ t.i.toNat = 5 * (s.reg x).toNat ∧ UnchangedBut [.index] s t

/-- R193: FX33 stores the hundreds, tens and ones of `V[X]` at `I`, `I`+1, `I`+2 and changes no other byte and no register. The
lower limit on `I` is decision D11 (log entry 16). -/
def Obligations.DigitsAreStored : Prop :=
  ∀ (x : Reg) (s : State), 80 ≤ s.i.toNat → s.i.toNat + 2 ≤ 4095 →
    ∃ t, exec (.ldB x) s = .next t ∧
      (t.mem.byte (s.ea 0)).toNat = (s.reg x).toNat / 100 ∧
      (t.mem.byte (s.ea 1)).toNat = (s.reg x).toNat / 10 % 10 ∧
      (t.mem.byte (s.ea 2)).toNat = (s.reg x).toNat % 10 ∧
      UnchangedBut (byteParts (s.ea 0) 3) s t

/-- R194, R197: FX55 stores `V[0]` to `V[X]` at `I` to `I`+X and no other byte; `I` moves on by X + 1 in legacy mode only. The
lower limit on `I` is decision D11 (log entry 16). -/
def Obligations.RegistersAreStored : Prop :=
  ∀ (x : Reg) (s : State), 80 ≤ s.i.toNat → s.i.toNat + x.val ≤ 4095 →
    ∃ t, exec (.ldMemVx x) s = .next t ∧
      (∀ r : Reg, r ≤ x → t.mem.byte (s.ea r.val) = s.reg r) ∧
      t.i.toNat = (if s.legacy then s.i.toNat + x.val + 1 else s.i.toNat) ∧
      UnchangedBut (.index :: byteParts (s.ea 0) (x.val + 1)) s t

/-- R195, R197: FX65 loads `V[0]` to `V[X]` from `I` to `I`+X, from any address; registers above X and all of memory stay; `I`
moves on by X + 1 in legacy mode only. -/
def Obligations.RegistersAreLoaded : Prop :=
  ∀ (x : Reg) (s : State), s.i.toNat + x.val ≤ 4095 →
    ∃ t, exec (.ldVxMem x) s = .next t ∧
      (∀ r : Reg, r ≤ x → t.reg r = s.mem.byte (s.ea r.val)) ∧
      t.i.toNat = (if s.legacy then s.i.toNat + x.val + 1 else s.i.toNat) ∧
      UnchangedBut (.index :: regPartsUpTo x) s t

/-- The source's round trip law (R195, 95_test_vectors.md E7): after FX55, an FX65 with the same X and the same index register
restores the stored registers, whatever the registers held in between, in both modes. -/
def Obligations.StoreThenLoadRestores : Prop :=
  ∀ (x : Reg) (s t t' : State), exec (.ldMemVx x) s = .next t → t'.mem = t.mem → t'.i = s.i →
    ∃ u, exec (.ldVxMem x) t' = .next u ∧ ∀ r : Reg, r ≤ x → u.reg r = s.reg r

/-- R64, R79: only FX33 and FX55 write memory. -/
def Obligations.OnlyStoresWriteMemory : Prop :=
  ∀ (i : Instr) (s t : State), (∀ x, i ≠ .ldB x) → (∀ x, i ≠ .ldMemVx x) → exec i s = .next t →
    ∀ a, t.mem.byte a = s.mem.byte a

/-- R61, R64: no step changes a byte of the font table. That a write there faults is decision D11 (log entry 16). -/
def Obligations.FontIsNeverWritten : Prop :=
  ∀ s t : State, step s = .next t → ∀ a, a < 80 → t.mem.byte a = s.mem.byte a

/-! ## Display -/

/-- R210: 00E0 turns every pixel off and marks the buffer dirty; `VF` and everything else stay. -/
def Obligations.ClearScreen : Prop :=
  ∀ s : State, ∃ t, exec .cls s = .next t ∧ (∀ row col, t.fb.pixel row col = false) ∧ t.dirty = true ∧
    UnchangedBut [.screen, .dirty] s t

/-- R211, R212: DXYN exclusive-ors the sprite into the screen pixel by pixel, clipped at the edges, sets `VF` to 1 exactly when a
lit pixel was turned off, marks the buffer dirty, and changes nothing else; N = 0 draws nothing whatever `I` holds. The bit order
is decision D14 (log entry 11), the coordinates read before `VF` decision D12 (log entry 14), the check of the whole run decision
D13 (log entry 15). -/
def Obligations.SpriteIsXoredIn : Prop :=
  ∀ (x y : Reg) (n : BitVec 4) (s : State), n.toNat = 0 ∨ s.i.toNat + n.toNat - 1 ≤ 4095 →
    ∃ t, exec (.drw x y n) s = .next t ∧
      (∀ row col, row < 32 → col < 64 → t.fb.pixel row col = (s.fb.pixel row col ^^ spriteLit s x y n row col)) ∧
      ((t.reg VF = 1 ∧ ∃ row col, row < 32 ∧ col < 64 ∧ s.fb.pixel row col = true ∧ spriteLit s x y n row col = true) ∨
        (t.reg VF = 0 ∧
          ∀ row col, row < 32 → col < 64 → s.fb.pixel row col = true → spriteLit s x y n row col = false)) ∧
      t.dirty = true ∧ UnchangedBut [.reg VF, .screen, .dirty] s t

/-- The source's double-draw law (R211, 90_conflicts.md C7): drawing the same sprite at the same place again restores the screen,
and reports a collision when the first draw lit a pixel that was off. The coordinates stay the same because neither is `VF`. No
bit order of a sprite byte (log entry 11) is in it: pixels are compared before and after. -/
def Obligations.DrawingTwiceRestoresScreen : Prop :=
  ∀ (x y : Reg) (n : BitVec 4) (s t : State), x ≠ VF → y ≠ VF → exec (.drw x y n) s = .next t →
    ∃ u, exec (.drw x y n) t = .next u ∧ (∀ row col, row < 32 → col < 64 → u.fb.pixel row col = s.fb.pixel row col) ∧
      ((∃ row col, row < 32 ∧ col < 64 ∧ s.fb.pixel row col = false ∧ t.fb.pixel row col = true) → u.reg VF = 1)

/-- R34: only 00E0 and DXYN change the frame buffer, and whichever instruction sets the dirty bit is one of the two. -/
def Obligations.OnlyClearAndDrawTouchScreen : Prop :=
  ∀ (i : Instr) (s t : State), exec i s = .next t → i ≠ .cls → (∀ x y n, i ≠ .drw x y n) →
    t.fb = s.fb ∧ t.dirty = s.dirty

/-! ## Keypad and timers -/

/-- R230, R231, R149: the key skips move `pc` on by 2 more exactly when the key of that code is held, or is not, and change
nothing else. The fault above code 15 is decision D10 (log entry 19). -/
def Obligations.KeySkips : Prop :=
  ∀ (x : Reg) (s : State), (s.reg x).toNat ≤ 15 →
    (∃ t, exec (.skp x) s = .next t ∧
      t.pc = (if s.keysHeld.getLsbD (s.reg x).toNat = true then s.pc + 2 else s.pc) ∧ UnchangedBut [.pc] s t) ∧
    (∃ t, exec (.sknp x) s = .next t ∧
      t.pc = (if s.keysHeld.getLsbD (s.reg x).toNat = false then s.pc + 2 else s.pc) ∧ UnchangedBut [.pc] s t)

/-- R232: FX0A with a key event puts its code in `V[X]` and uses the event up (decision D19, log entry 20); without one it only
rewinds `pc` by 2, so that the same instruction is fetched again. -/
def Obligations.KeyWaitTakesEventOrRewinds : Prop :=
  ∀ (x : Reg) (s : State),
    (∀ k, s.keyEvent = some k →
      ∃ t, exec (.ldVxK x) s = .next t ∧ (t.reg x).toNat = k.val ∧ t.keyEvent = none ∧
        UnchangedBut [.reg x, .keyEvent] s t) ∧
    (s.keyEvent = none → ∃ t, exec (.ldVxK x) s = .next t ∧ t.pc = s.pc - 2 ∧ UnchangedBut [.pc] s t)

/-- R233, R234: FX07 reads the delay timer, FX15 writes it; nothing else changes. -/
def Obligations.DelayTimerReadAndWrite : Prop :=
  ∀ (x : Reg) (s : State),
    (∃ t, exec (.ldVxDT x) s = .next t ∧ t.reg x = s.dt ∧ UnchangedBut [.reg x] s t) ∧
    (∃ t, exec (.ldDTVx x) s = .next t ∧ t.dt = s.reg x ∧ UnchangedBut [.delay] s t)

/-- R235: FX18 writes the sound timer; a nonzero value sends `start_tone`, a zero value sends nothing and leaves the tone as it
is (decision D20, log entry 21). -/
def Obligations.SoundTimerWrite : Prop :=
  ∀ (x : Reg) (s : State), ∃ t, exec (.ldSTVx x) s = .next t ∧ t.st = s.reg x ∧
    (s.reg x ≠ 0 → t.tone = true ∧ t.out = .startTone :: s.out) ∧
    (s.reg x = 0 → t.tone = s.tone ∧ t.out = s.out) ∧ UnchangedBut [.sound, .tone, .out] s t

/-! ## The frame scheduler -/

/-- R271: phase 1 latches the frame's host record and clears `slot`; it comes before a slot exactly when a frame begins, which the
model reads from `slot` (log entry 6). -/
def Obligations.InputPhaseLatchesHostRecord : Prop :=
  ∀ s : State,
    (s.slot = 0 ∨ 10 ≤ s.slot →
      (beginSlot s).keysHeld = s.hostNow.keysHeld ∧ (beginSlot s).keyEvent = s.hostNow.keyEvent ∧
      (beginSlot s).slot = 0 ∧ UnchangedBut [.keysHeld, .keyEvent, .slot] s (beginSlot s)) ∧
    (0 < s.slot → s.slot < 10 → beginSlot s = s)

/-- R273: phase 3 takes each timer down by 1, floor at zero, and sends `stop_tone` exactly when the sound timer goes from 1 to 0. -/
def Obligations.TimerPhase : Prop :=
  ∀ s : State,
    (phaseTimers s).dt.toNat = s.dt.toNat - 1 ∧ (phaseTimers s).st.toNat = s.st.toNat - 1 ∧
    (s.st = 1 → (phaseTimers s).tone = false ∧ (phaseTimers s).out = .stopTone :: s.out) ∧
    (s.st ≠ 1 → (phaseTimers s).tone = s.tone ∧ (phaseTimers s).out = s.out) ∧
    UnchangedBut [.delay, .sound, .tone, .out] s (phaseTimers s)

/-- R274: phase 4 sends the whole frame buffer and clears the dirty bit when it is set; otherwise it does nothing. -/
def Obligations.DisplayPhase : Prop :=
  ∀ s : State,
    (s.dirty = true → (phaseDisplay s).out = .flush s.fb :: s.out ∧ (phaseDisplay s).dirty = false ∧
      UnchangedBut [.dirty, .out] s (phaseDisplay s)) ∧
    (s.dirty = false → phaseDisplay s = s)

/-- R270, R272: a slot that completes is counted; the tenth slot of a frame, and no other, is followed by phases 3, 4 and 5 in
this order. The stop sample after phase 4 is decision D21 (log entry 22); which slot is the tenth is read from `slot` (log
entry 6). -/
def Obligations.TenthSlotEndsFrame : Prop :=
  ∀ s t : State, s.runState = .running → s.slot ≤ 10 → runInstr (beginSlot s) = .next t →
    (s.slot = 9 → step s = .next (phaseStop (phaseDisplay (phaseTimers (countSlot t))))) ∧
    (s.slot ≠ 9 → step s = .next (countSlot t))

/-- R33: the slot count runs from 1 to 10 and starts again: after a completed slot of a running machine it is one more, or 1 when
the slot opened a frame. -/
def Obligations.SlotCountAdvances : Prop :=
  ∀ s t : State, s.runState = .running → s.slot ≤ 10 → step s = .next t →
    t.slot = (if s.slot = 10 then 1 else s.slot + 1)

/-- R275, R129: a running machine's completed slot leaves it running, but for the tenth slot of a frame whose host record asks to
stop, which leaves it STOPPED (sample point: decision D21, log entry 22). -/
def Obligations.StopsOnlyOnRequestAtFrameEnd : Prop :=
  ∀ s t : State, s.runState = .running → s.slot ≤ 10 → step s = .next t →
    t.runState = (if s.slot = 9 ∧ s.hostNow.stopReq = true then .stopped else .running)

/-- R36, R313: within a frame the held keys do not change, and the key event only when the slot's instruction is an FX0A, which
uses it up (decisions D19, D31, log entry 20). -/
def Obligations.LatchesHoldWithinFrame : Prop :=
  ∀ s t : State, s.runState = .running → 0 < s.slot → s.slot < 10 → step s = .next t →
    t.keysHeld = s.keysHeld ∧
    (t.keyEvent = s.keyEvent ∨ (t.keyEvent = none ∧ ∃ x, decode s.fetchWord = .ok (.ldVxK x)))

/-- R312, for the delay timer: a slot that neither executes FX15 nor ends the frame leaves it, the slot that opens a frame
included. Which slot ends the frame is read from `slot` (decision D28, log entry 6). -/
def Obligations.DelayTimerHoldsWithinFrame : Prop :=
  ∀ (s t : State) (i : Instr), s.runState = .running → s.slot ≤ 10 → s.slot ≠ 9 → decode s.fetchWord = .ok i →
    (∀ x, i ≠ .ldDTVx x) → step s = .next t → t.dt = s.dt

/-- R312, for the sound timer: a slot that neither executes FX18 nor ends the frame leaves the sound timer and the tone, the slot
that opens a frame included. Which slot ends the frame is read from `slot` (decision D28, log entry 6). -/
def Obligations.SoundTimerHoldsWithinFrame : Prop :=
  ∀ (s t : State) (i : Instr), s.runState = .running → s.slot ≤ 10 → s.slot ≠ 9 → decode s.fetchWord = .ok i →
    (∀ x, i ≠ .ldSTVx x) → step s = .next t → t.st = s.st ∧ t.tone = s.tone

/-- R274, R284: a frame sends at most one flush: its tenth slot sends one exactly when the buffer is dirty after the instruction,
and no other slot sends any (which slot is the tenth: decision D28, log entry 6). -/
def Obligations.FlushOnlyAtFrameEnd : Prop :=
  ∀ s t u : State, s.runState = .running → s.slot ≤ 10 → runInstr (beginSlot s) = .next t → step s = .next u →
    flushCount u.out = flushCount s.out + (if s.slot = 9 ∧ t.dirty = true then 1 else 0)

/-- R272, R276, R284: a frame that does not fault runs all ten slots, uses up one host record, leaves nothing to flush, and the
machine stops exactly when that record asked for it (decisions D21, D28, log entries 6, 8, 22). -/
def Obligations.FrameRunsTenSlots : Prop :=
  ∀ s : State, s.runState = .running → s.slot = 0 ∨ s.slot = 10 → (frame s).faultRecord? = none →
    (frame s).slot = 10 ∧ (frame s).dirty = false ∧ (frame s).keysHeld = s.hostNow.keysHeld ∧
    (frame s).hostQueue = s.hostQueue.tail ∧
    (frame s).runState = (if s.hostNow.stopReq = true then .stopped else .running)

/-- R29, R302: `LEGACY` is fixed: no step changes it, from any state, for any number of steps. -/
def Obligations.LegacyNeverChanges : Prop := ∀ (k : Nat) (s : State), (ticks k s).legacy = s.legacy

/-! ## The invariant and reset -/

/-- R24, R26, R33, R60: every step keeps `pc` in 512 .. 4098, at most 12 stack entries, each a post-fetch counter, the slot count
at most 10, and memory in its canonical form. -/
def Obligations.StepKeepsInvariant : Prop := ∀ s t : State, Inv s → step s = .next t → Inv t

/-- R39: the invariant holds after reset, for either mode, every font and every image. -/
def Obligations.InvariantAtReset : Prop :=
  Inv State.reset ∧ ∀ (legacy : Bool) (font : Vector Byte 80) (image : List Byte), Inv (State.resetWith legacy font image)

/-- R300, R301, R35, R39: after reset `pc` is 512, the font is at 0, the image at 512, every other byte 0, `LEGACY` is the strap,
every other field of R39 is zero, empty or none. The machine runs unless the image is longer than 3584 bytes, in which case it
is FAULTED with the load record (decision D29, log entry 27). The zeros of the registers, timers, stack, screen and dirty bit
are decision D16, that of the tone decision D20 (log entry 1). -/
def Obligations.ResetLoadsFontAndImage : Prop :=
  ∀ (legacy : Bool) (font : Vector Byte 80) (image : List Byte) (s : State), s = State.resetWith legacy font image →
    s.pc = 512 ∧ s.legacy = legacy ∧ (∀ a, (h : a < 80) → s.mem.byte a = font[a]) ∧
    (∀ r, s.reg r = 0) ∧ s.i = 0 ∧ s.stack = [] ∧ s.dt = 0 ∧ s.st = 0 ∧ s.dirty = false ∧ s.slot = 0 ∧
    s.tone = false ∧ s.keysHeld = 0 ∧ s.keyEvent = none ∧
    (∀ row col, s.fb.pixel row col = false) ∧
    (image.length ≤ 3584 → s.runState = .running ∧
      (∀ j, (h : j < image.length) → s.mem.byte (512 + j) = image[j]) ∧
      (∀ a, 80 ≤ a → (a < 512 ∨ 512 + image.length ≤ a) → s.mem.byte a = 0)) ∧
    (3584 < image.length → s.runState = .faulted ⟨.imageTooLarge, 512, none, image.length⟩)
end

