-- ==== Sys2Proof/Laws/Decode.lean ====
section
/-! SUPPORT. Fields of assembled words: what `fieldsOf` cuts from each format of R92, and registers as nibbles. -/

namespace Sys2Proof

@[simp] theorem regOfNibble_nibbleOfReg (r : Reg) : regOfNibble (nibbleOfReg r) = r := by
  apply Fin.ext
  simp [regOfNibble, nibbleOfReg]

@[simp] theorem nibbleOfReg_regOfNibble (b : BitVec 4) : nibbleOfReg (regOfNibble b) = b := by
  apply BitVec.eq_of_toNat_eq
  simp [regOfNibble, nibbleOfReg]

/-- The upper part of an assembled word. -/
theorem extract_append_high {m n w : Nat} (a : BitVec m) (b : BitVec n) (k : Nat) :
    (a ++ b).extractLsb' (n + k) w = a.extractLsb' k w := by
  apply BitVec.eq_of_getLsbD_eq
  intro i hi
  simp [BitVec.getLsbD_append, hi, show ¬ n + k + i < n by omega, show n + k + i - n = k + i by omega]

/-- The lower part of an assembled word. -/
theorem extract_append_low {m n w : Nat} (a : BitVec m) (b : BitVec n) (k : Nat) (h : k + w ≤ n) :
    (a ++ b).extractLsb' k w = b.extractLsb' k w := by
  apply BitVec.eq_of_getLsbD_eq
  intro i hi
  simp [BitVec.getLsbD_append, hi, show k + i < n by omega]

/-! ## Fields of an assembled word -/

@[simp] theorem fieldsOf_wordNNN_t (t : BitVec 4) (nnn : BitVec 12) : (fieldsOf (wordNNN t nnn)).t = t := by
  simpa [fieldsOf, wordNNN] using extract_append_high (w := 4) t nnn 0

@[simp] theorem fieldsOf_wordNNN_nnn (t : BitVec 4) (nnn : BitVec 12) : (fieldsOf (wordNNN t nnn)).nnn = nnn := by
  simpa [fieldsOf, wordNNN] using extract_append_low (w := 12) t nnn 0 (by omega)

@[simp] theorem fieldsOf_wordXNN_t (t : BitVec 4) (x : Reg) (nn : Byte) : (fieldsOf (wordXNN t x nn)).t = t := by
  have h1 := extract_append_high (w := 4) (t ++ nibbleOfReg x) nn 4
  have h2 := extract_append_high (w := 4) t (nibbleOfReg x) 0
  simpa [fieldsOf, wordXNN] using h1.trans h2

@[simp] theorem fieldsOf_wordXNN_x (t : BitVec 4) (x : Reg) (nn : Byte) : (fieldsOf (wordXNN t x nn)).x = x := by
  have h1 := extract_append_high (w := 4) (t ++ nibbleOfReg x) nn 0
  have h2 := extract_append_low (w := 4) t (nibbleOfReg x) 0 (by omega)
  have h3 := h1.trans h2
  simp only [Nat.add_zero, BitVec.extractLsb'_eq_self] at h3
  simp [fieldsOf, wordXNN, h3]

@[simp] theorem fieldsOf_wordXNN_nn (t : BitVec 4) (x : Reg) (nn : Byte) : (fieldsOf (wordXNN t x nn)).nn = nn := by
  simpa [fieldsOf, wordXNN] using extract_append_low (w := 8) (t ++ nibbleOfReg x) nn 0 (by omega)

@[simp] theorem fieldsOf_wordXYN_t (t : BitVec 4) (x y : Reg) (n : BitVec 4) :
    (fieldsOf (wordXYN t x y n)).t = t := by
  have h1 := extract_append_high (w := 4) (t ++ nibbleOfReg x ++ nibbleOfReg y) n 8
  have h2 := extract_append_high (w := 4) (t ++ nibbleOfReg x) (nibbleOfReg y) 4
  have h3 := extract_append_high (w := 4) t (nibbleOfReg x) 0
  simpa [fieldsOf, wordXYN] using (h1.trans h2).trans h3

@[simp] theorem fieldsOf_wordXYN_x (t : BitVec 4) (x y : Reg) (n : BitVec 4) :
    (fieldsOf (wordXYN t x y n)).x = x := by
  have h1 := extract_append_high (w := 4) (t ++ nibbleOfReg x ++ nibbleOfReg y) n 4
  have h2 := extract_append_high (w := 4) (t ++ nibbleOfReg x) (nibbleOfReg y) 0
  have h3 := extract_append_low (w := 4) t (nibbleOfReg x) 0 (by omega)
  have h4 := (h1.trans h2).trans h3
  simp only [BitVec.extractLsb'_eq_self] at h4
  simp [fieldsOf, wordXYN, h4]

@[simp] theorem fieldsOf_wordXYN_y (t : BitVec 4) (x y : Reg) (n : BitVec 4) :
    (fieldsOf (wordXYN t x y n)).y = y := by
  have h1 := extract_append_high (w := 4) (t ++ nibbleOfReg x ++ nibbleOfReg y) n 0
  have h2 := extract_append_low (w := 4) (t ++ nibbleOfReg x) (nibbleOfReg y) 0 (by omega)
  have h3 := h1.trans h2
  simp only [Nat.add_zero, BitVec.extractLsb'_eq_self] at h3
  simp [fieldsOf, wordXYN, h3]

@[simp] theorem fieldsOf_wordXYN_n (t : BitVec 4) (x y : Reg) (n : BitVec 4) :
    (fieldsOf (wordXYN t x y n)).n = n := by
  simpa [fieldsOf, wordXYN] using extract_append_low (w := 4) (t ++ nibbleOfReg x ++ nibbleOfReg y) n 0 (by omega)

/-! ## A word from its fields -/

/-- A cut of `n + k` bits is the append of its two cuts. -/
theorem extract_split {v : Nat} (w : BitVec v) (s n k : Nat) :
    w.extractLsb' s (n + k) = w.extractLsb' (s + k) n ++ w.extractLsb' s k := by
  apply BitVec.eq_of_getLsbD_eq
  intro i hi
  simp only [BitVec.getLsbD_append, BitVec.getLsbD_extractLsb']
  split
  · simp_all
  · rename_i h
    simp [hi, show i - k < n by omega, show s + k + (i - k) = s + i by omega]

theorem wordNNN_fieldsOf (op : Word) : wordNNN (fieldsOf op).t (fieldsOf op).nnn = op := by
  have h := extract_split op 0 4 12
  simp only [Nat.zero_add, Nat.reduceAdd, BitVec.extractLsb'_eq_self] at h
  exact h.symm

theorem wordXNN_fieldsOf (op : Word) : wordXNN (fieldsOf op).t (fieldsOf op).x (fieldsOf op).nn = op := by
  have h := extract_split op 0 8 8
  rw [show op.extractLsb' (0 + 8) 8 = op.extractLsb' 12 4 ++ op.extractLsb' 8 4 from extract_split op 8 4 4] at h
  simp only [Nat.reduceAdd, BitVec.extractLsb'_eq_self] at h
  simp only [wordXNN, fieldsOf, nibbleOfReg_regOfNibble]
  exact h.symm

theorem wordXYN_fieldsOf (op : Word) :
    wordXYN (fieldsOf op).t (fieldsOf op).x (fieldsOf op).y (fieldsOf op).n = op := by
  have h := extract_split op 0 12 4
  rw [show op.extractLsb' (0 + 4) 12 = op.extractLsb' 8 8 ++ op.extractLsb' 4 4 from extract_split op 4 8 4,
    show op.extractLsb' 8 8 = op.extractLsb' 12 4 ++ op.extractLsb' 8 4 from extract_split op 8 4 4] at h
  simp only [Nat.reduceAdd, BitVec.extractLsb'_eq_self] at h
  simp only [wordXYN, fieldsOf, nibbleOfReg_regOfNibble]
  exact h.symm

/-- The high byte comes first (R67). -/
theorem toNat_wordOfBytes (hi lo : Byte) : (wordOfBytes hi lo).toNat = hi.toNat * 256 + lo.toNat := by
  have h := BitVec.toNat_append hi lo
  have hl := lo.isLt
  rw [Nat.shiftLeft_eq, Nat.mul_comm, ← Nat.two_pow_add_eq_or_of_lt hl] at h
  unfold wordOfBytes
  omega

/-- A word is made of its two bytes. -/
theorem wordOfBytes_extract (op : Word) : wordOfBytes (op.extractLsb' 8 8) (op.extractLsb' 0 8) = op := by
  have h := extract_split op 0 8 8
  simp only [Nat.zero_add, Nat.reduceAdd, BitVec.extractLsb'_eq_self] at h
  exact h.symm

/-! ## What a family's decoder reads -/

/-- Inversion of one test of a decoder. -/
theorem ite_eq_some_cases {α : Type} {c : Prop} [Decidable c] {a b : Option α} {i : α}
    (h : (if c then a else b) = some i) : (c ∧ a = some i) ∨ (¬ c ∧ b = some i) := by
  by_cases hc : c
  · exact .inl ⟨hc, by rwa [if_pos hc] at h⟩
  · exact .inr ⟨hc, by rwa [if_neg hc] at h⟩

theorem encode_of_decode0 {f : Fields} {i : Instr} (h : decode0 f = some i) : encode i = wordNNN 0x0 f.nnn := by
  unfold decode0 at h
  iterate 2 (
    rcases ite_eq_some_cases h with ⟨e, h⟩ | ⟨_, h⟩
    · rw [e, ← Option.some.inj h]; rfl)
  cases h

theorem encode_of_decode8 {f : Fields} {i : Instr} (h : decode8 f = some i) :
    encode i = wordXYN 0x8 f.x f.y f.n := by
  unfold decode8 at h
  iterate 9 (
    rcases ite_eq_some_cases h with ⟨e, h⟩ | ⟨_, h⟩
    · rw [e, ← Option.some.inj h]; rfl)
  cases h

theorem encode_of_decodeE {f : Fields} {i : Instr} (h : decodeE f = some i) : encode i = wordXNN 0xE f.x f.nn := by
  unfold decodeE at h
  iterate 2 (
    rcases ite_eq_some_cases h with ⟨e, h⟩ | ⟨_, h⟩
    · rw [e, ← Option.some.inj h]; rfl)
  cases h

theorem encode_of_decodeF {f : Fields} {i : Instr} (h : decodeF f = some i) : encode i = wordXNN 0xF f.x f.nn := by
  unfold decodeF at h
  iterate 9 (
    rcases ite_eq_some_cases h with ⟨e, h⟩ | ⟨_, h⟩
    · rw [e, ← Option.some.inj h]; rfl)
  cases h

/-- The last family: a nibble that is none of 0 to E is F. -/
theorem nibble_eq_F (t : BitVec 4) (h0 : ¬ t = 0) (h1 : ¬ t = 1) (h2 : ¬ t = 2) (h3 : ¬ t = 3) (h4 : ¬ t = 4)
    (h5 : ¬ t = 5) (h6 : ¬ t = 6) (h7 : ¬ t = 7) (h8 : ¬ t = 8) (h9 : ¬ t = 9) (hA : ¬ t = 0xA) (hB : ¬ t = 0xB)
    (hC : ¬ t = 0xC) (hD : ¬ t = 0xD) (hE : ¬ t = 0xE) : t = 0xF := by
  bv_omega

/-! ## Masks of R95 on assembled words -/

theorem and_wordNNN (t : BitVec 4) (nnn : BitVec 12) : wordNNN t nnn &&& 0xF000 = wordNNN t 0 := by
  change (t ++ nnn) &&& (BitVec.allOnes 4 ++ 0#12) = t ++ 0#12
  rw [BitVec.and_append]
  simp only [BitVec.and_allOnes, BitVec.and_zero]

theorem and_wordXNN (t : BitVec 4) (x : Reg) (nn : Byte) : wordXNN t x nn &&& 0xF000 = wordXNN t 0 0 := by
  change (t ++ nibbleOfReg x ++ nn) &&& (BitVec.allOnes 4 ++ 0#4 ++ 0#8) = t ++ 0#4 ++ 0#8
  rw [BitVec.and_append, BitVec.and_append]
  simp only [BitVec.and_allOnes, BitVec.and_zero]

theorem and_wordX (t : BitVec 4) (x : Reg) (nn : Byte) : wordXNN t x nn &&& 0xF0FF = wordXNN t 0 nn := by
  change (t ++ nibbleOfReg x ++ nn) &&& (BitVec.allOnes 4 ++ 0#4 ++ BitVec.allOnes 8) = t ++ 0#4 ++ nn
  rw [BitVec.and_append, BitVec.and_append]
  simp only [BitVec.and_allOnes, BitVec.and_zero]

theorem and_wordXY (t : BitVec 4) (x y : Reg) (n : BitVec 4) : wordXYN t x y n &&& 0xF00F = wordXYN t 0 0 n := by
  change (t ++ nibbleOfReg x ++ nibbleOfReg y ++ n) &&& (BitVec.allOnes 4 ++ 0#4 ++ 0#4 ++ BitVec.allOnes 4) =
    t ++ 0#4 ++ 0#4 ++ n
  rw [BitVec.and_append, BitVec.and_append, BitVec.and_append]
  simp only [BitVec.and_allOnes, BitVec.and_zero]

theorem and_wordXYN (t : BitVec 4) (x y : Reg) (n : BitVec 4) : wordXYN t x y n &&& 0xF000 = wordXYN t 0 0 0 := by
  change (t ++ nibbleOfReg x ++ nibbleOfReg y ++ n) &&& (BitVec.allOnes 4 ++ 0#4 ++ 0#4 ++ 0#4) =
    t ++ 0#4 ++ 0#4 ++ 0#4
  rw [BitVec.and_append, BitVec.and_append, BitVec.and_append]
  simp only [BitVec.and_allOnes, BitVec.and_zero]

end Sys2Proof
end

