-- ==== Sys2Proof/Laws/State.lean ====
section
/-! SUPPORT. What each update of the state does to each field (one lemma per field per update), and reading a register
after an update. -/

namespace Sys2Proof.Machine

/-! ## `setReg` -/

@[simp] theorem State.setReg_regs (s : State) (r : Reg) (b : Byte) : (s.setReg r b).regs = s.regs.set r b := rfl
@[simp] theorem State.setReg_i (s : State) (r : Reg) (b : Byte) : (s.setReg r b).i = s.i := rfl
@[simp] theorem State.setReg_pc (s : State) (r : Reg) (b : Byte) : (s.setReg r b).pc = s.pc := rfl
@[simp] theorem State.setReg_stack (s : State) (r : Reg) (b : Byte) : (s.setReg r b).stack = s.stack := rfl
@[simp] theorem State.setReg_dt (s : State) (r : Reg) (b : Byte) : (s.setReg r b).dt = s.dt := rfl
@[simp] theorem State.setReg_st (s : State) (r : Reg) (b : Byte) : (s.setReg r b).st = s.st := rfl
@[simp] theorem State.setReg_legacy (s : State) (r : Reg) (b : Byte) : (s.setReg r b).legacy = s.legacy := rfl
@[simp] theorem State.setReg_dirty (s : State) (r : Reg) (b : Byte) : (s.setReg r b).dirty = s.dirty := rfl
@[simp] theorem State.setReg_runState (s : State) (r : Reg) (b : Byte) : (s.setReg r b).runState = s.runState := rfl
@[simp] theorem State.setReg_slot (s : State) (r : Reg) (b : Byte) : (s.setReg r b).slot = s.slot := rfl
@[simp] theorem State.setReg_fb (s : State) (r : Reg) (b : Byte) : (s.setReg r b).fb = s.fb := rfl
@[simp] theorem State.setReg_mem (s : State) (r : Reg) (b : Byte) : (s.setReg r b).mem = s.mem := rfl
@[simp] theorem State.setReg_keysHeld (s : State) (r : Reg) (b : Byte) : (s.setReg r b).keysHeld = s.keysHeld := rfl
@[simp] theorem State.setReg_keyEvent (s : State) (r : Reg) (b : Byte) : (s.setReg r b).keyEvent = s.keyEvent := rfl
@[simp] theorem State.setReg_tone (s : State) (r : Reg) (b : Byte) : (s.setReg r b).tone = s.tone := rfl
@[simp] theorem State.setReg_hostQueue (s : State) (r : Reg) (b : Byte) : (s.setReg r b).hostQueue = s.hostQueue := rfl
@[simp] theorem State.setReg_hostIdle (s : State) (r : Reg) (b : Byte) : (s.setReg r b).hostIdle = s.hostIdle := rfl
@[simp] theorem State.setReg_randQueue (s : State) (r : Reg) (b : Byte) : (s.setReg r b).randQueue = s.randQueue := rfl
@[simp] theorem State.setReg_randDrawn (s : State) (r : Reg) (b : Byte) : (s.setReg r b).randDrawn = s.randDrawn := rfl
@[simp] theorem State.setReg_out (s : State) (r : Reg) (b : Byte) : (s.setReg r b).out = s.out := rfl

/-! ## `setI` -/

@[simp] theorem State.setI_regs (s : State) (w : Word) : (s.setI w).regs = s.regs := rfl
@[simp] theorem State.setI_i (s : State) (w : Word) : (s.setI w).i = w := rfl
@[simp] theorem State.setI_pc (s : State) (w : Word) : (s.setI w).pc = s.pc := rfl
@[simp] theorem State.setI_stack (s : State) (w : Word) : (s.setI w).stack = s.stack := rfl
@[simp] theorem State.setI_dt (s : State) (w : Word) : (s.setI w).dt = s.dt := rfl
@[simp] theorem State.setI_st (s : State) (w : Word) : (s.setI w).st = s.st := rfl
@[simp] theorem State.setI_legacy (s : State) (w : Word) : (s.setI w).legacy = s.legacy := rfl
@[simp] theorem State.setI_dirty (s : State) (w : Word) : (s.setI w).dirty = s.dirty := rfl
@[simp] theorem State.setI_runState (s : State) (w : Word) : (s.setI w).runState = s.runState := rfl
@[simp] theorem State.setI_slot (s : State) (w : Word) : (s.setI w).slot = s.slot := rfl
@[simp] theorem State.setI_fb (s : State) (w : Word) : (s.setI w).fb = s.fb := rfl
@[simp] theorem State.setI_mem (s : State) (w : Word) : (s.setI w).mem = s.mem := rfl
@[simp] theorem State.setI_keysHeld (s : State) (w : Word) : (s.setI w).keysHeld = s.keysHeld := rfl
@[simp] theorem State.setI_keyEvent (s : State) (w : Word) : (s.setI w).keyEvent = s.keyEvent := rfl
@[simp] theorem State.setI_tone (s : State) (w : Word) : (s.setI w).tone = s.tone := rfl
@[simp] theorem State.setI_hostQueue (s : State) (w : Word) : (s.setI w).hostQueue = s.hostQueue := rfl
@[simp] theorem State.setI_hostIdle (s : State) (w : Word) : (s.setI w).hostIdle = s.hostIdle := rfl
@[simp] theorem State.setI_randQueue (s : State) (w : Word) : (s.setI w).randQueue = s.randQueue := rfl
@[simp] theorem State.setI_randDrawn (s : State) (w : Word) : (s.setI w).randDrawn = s.randDrawn := rfl
@[simp] theorem State.setI_out (s : State) (w : Word) : (s.setI w).out = s.out := rfl

/-! ## `setPc` -/

@[simp] theorem State.setPc_regs (s : State) (w : Word) : (s.setPc w).regs = s.regs := rfl
@[simp] theorem State.setPc_i (s : State) (w : Word) : (s.setPc w).i = s.i := rfl
@[simp] theorem State.setPc_pc (s : State) (w : Word) : (s.setPc w).pc = w := rfl
@[simp] theorem State.setPc_stack (s : State) (w : Word) : (s.setPc w).stack = s.stack := rfl
@[simp] theorem State.setPc_dt (s : State) (w : Word) : (s.setPc w).dt = s.dt := rfl
@[simp] theorem State.setPc_st (s : State) (w : Word) : (s.setPc w).st = s.st := rfl
@[simp] theorem State.setPc_legacy (s : State) (w : Word) : (s.setPc w).legacy = s.legacy := rfl
@[simp] theorem State.setPc_dirty (s : State) (w : Word) : (s.setPc w).dirty = s.dirty := rfl
@[simp] theorem State.setPc_runState (s : State) (w : Word) : (s.setPc w).runState = s.runState := rfl
@[simp] theorem State.setPc_slot (s : State) (w : Word) : (s.setPc w).slot = s.slot := rfl
@[simp] theorem State.setPc_fb (s : State) (w : Word) : (s.setPc w).fb = s.fb := rfl
@[simp] theorem State.setPc_mem (s : State) (w : Word) : (s.setPc w).mem = s.mem := rfl
@[simp] theorem State.setPc_keysHeld (s : State) (w : Word) : (s.setPc w).keysHeld = s.keysHeld := rfl
@[simp] theorem State.setPc_keyEvent (s : State) (w : Word) : (s.setPc w).keyEvent = s.keyEvent := rfl
@[simp] theorem State.setPc_tone (s : State) (w : Word) : (s.setPc w).tone = s.tone := rfl
@[simp] theorem State.setPc_hostQueue (s : State) (w : Word) : (s.setPc w).hostQueue = s.hostQueue := rfl
@[simp] theorem State.setPc_hostIdle (s : State) (w : Word) : (s.setPc w).hostIdle = s.hostIdle := rfl
@[simp] theorem State.setPc_randQueue (s : State) (w : Word) : (s.setPc w).randQueue = s.randQueue := rfl
@[simp] theorem State.setPc_randDrawn (s : State) (w : Word) : (s.setPc w).randDrawn = s.randDrawn := rfl
@[simp] theorem State.setPc_out (s : State) (w : Word) : (s.setPc w).out = s.out := rfl

/-! ## `push` -/

@[simp] theorem State.push_regs (s : State) (w : Word) : (s.push w).regs = s.regs := rfl
@[simp] theorem State.push_i (s : State) (w : Word) : (s.push w).i = s.i := rfl
@[simp] theorem State.push_pc (s : State) (w : Word) : (s.push w).pc = s.pc := rfl
@[simp] theorem State.push_stack (s : State) (w : Word) : (s.push w).stack = w :: s.stack := rfl
@[simp] theorem State.push_dt (s : State) (w : Word) : (s.push w).dt = s.dt := rfl
@[simp] theorem State.push_st (s : State) (w : Word) : (s.push w).st = s.st := rfl
@[simp] theorem State.push_legacy (s : State) (w : Word) : (s.push w).legacy = s.legacy := rfl
@[simp] theorem State.push_dirty (s : State) (w : Word) : (s.push w).dirty = s.dirty := rfl
@[simp] theorem State.push_runState (s : State) (w : Word) : (s.push w).runState = s.runState := rfl
@[simp] theorem State.push_slot (s : State) (w : Word) : (s.push w).slot = s.slot := rfl
@[simp] theorem State.push_fb (s : State) (w : Word) : (s.push w).fb = s.fb := rfl
@[simp] theorem State.push_mem (s : State) (w : Word) : (s.push w).mem = s.mem := rfl
@[simp] theorem State.push_keysHeld (s : State) (w : Word) : (s.push w).keysHeld = s.keysHeld := rfl
@[simp] theorem State.push_keyEvent (s : State) (w : Word) : (s.push w).keyEvent = s.keyEvent := rfl
@[simp] theorem State.push_tone (s : State) (w : Word) : (s.push w).tone = s.tone := rfl
@[simp] theorem State.push_hostQueue (s : State) (w : Word) : (s.push w).hostQueue = s.hostQueue := rfl
@[simp] theorem State.push_hostIdle (s : State) (w : Word) : (s.push w).hostIdle = s.hostIdle := rfl
@[simp] theorem State.push_randQueue (s : State) (w : Word) : (s.push w).randQueue = s.randQueue := rfl
@[simp] theorem State.push_randDrawn (s : State) (w : Word) : (s.push w).randDrawn = s.randDrawn := rfl
@[simp] theorem State.push_out (s : State) (w : Word) : (s.push w).out = s.out := rfl

/-! ## `storeRun` -/

@[simp] theorem State.storeRun_regs (s : State) (a : Nat) (bs : List Byte) : (s.storeRun a bs).regs = s.regs := rfl
@[simp] theorem State.storeRun_i (s : State) (a : Nat) (bs : List Byte) : (s.storeRun a bs).i = s.i := rfl
@[simp] theorem State.storeRun_pc (s : State) (a : Nat) (bs : List Byte) : (s.storeRun a bs).pc = s.pc := rfl
@[simp] theorem State.storeRun_stack (s : State) (a : Nat) (bs : List Byte) : (s.storeRun a bs).stack = s.stack := rfl
@[simp] theorem State.storeRun_dt (s : State) (a : Nat) (bs : List Byte) : (s.storeRun a bs).dt = s.dt := rfl
@[simp] theorem State.storeRun_st (s : State) (a : Nat) (bs : List Byte) : (s.storeRun a bs).st = s.st := rfl
@[simp] theorem State.storeRun_legacy (s : State) (a : Nat) (bs : List Byte) : (s.storeRun a bs).legacy = s.legacy := rfl
@[simp] theorem State.storeRun_dirty (s : State) (a : Nat) (bs : List Byte) : (s.storeRun a bs).dirty = s.dirty := rfl
@[simp] theorem State.storeRun_runState (s : State) (a : Nat) (bs : List Byte) : (s.storeRun a bs).runState = s.runState := rfl
@[simp] theorem State.storeRun_slot (s : State) (a : Nat) (bs : List Byte) : (s.storeRun a bs).slot = s.slot := rfl
@[simp] theorem State.storeRun_fb (s : State) (a : Nat) (bs : List Byte) : (s.storeRun a bs).fb = s.fb := rfl
@[simp] theorem State.storeRun_mem (s : State) (a : Nat) (bs : List Byte) : (s.storeRun a bs).mem = s.mem.writeList a bs := rfl
@[simp] theorem State.storeRun_keysHeld (s : State) (a : Nat) (bs : List Byte) : (s.storeRun a bs).keysHeld = s.keysHeld := rfl
@[simp] theorem State.storeRun_keyEvent (s : State) (a : Nat) (bs : List Byte) : (s.storeRun a bs).keyEvent = s.keyEvent := rfl
@[simp] theorem State.storeRun_tone (s : State) (a : Nat) (bs : List Byte) : (s.storeRun a bs).tone = s.tone := rfl
@[simp] theorem State.storeRun_hostQueue (s : State) (a : Nat) (bs : List Byte) : (s.storeRun a bs).hostQueue = s.hostQueue := rfl
@[simp] theorem State.storeRun_hostIdle (s : State) (a : Nat) (bs : List Byte) : (s.storeRun a bs).hostIdle = s.hostIdle := rfl
@[simp] theorem State.storeRun_randQueue (s : State) (a : Nat) (bs : List Byte) : (s.storeRun a bs).randQueue = s.randQueue := rfl
@[simp] theorem State.storeRun_randDrawn (s : State) (a : Nat) (bs : List Byte) : (s.storeRun a bs).randDrawn = s.randDrawn := rfl
@[simp] theorem State.storeRun_out (s : State) (a : Nat) (bs : List Byte) : (s.storeRun a bs).out = s.out := rfl

/-! ## `loadRegs` -/

@[simp] theorem State.loadRegs_i (s : State) (a : Nat) (x : Reg) : (s.loadRegs a x).i = s.i := rfl
@[simp] theorem State.loadRegs_pc (s : State) (a : Nat) (x : Reg) : (s.loadRegs a x).pc = s.pc := rfl
@[simp] theorem State.loadRegs_stack (s : State) (a : Nat) (x : Reg) : (s.loadRegs a x).stack = s.stack := rfl
@[simp] theorem State.loadRegs_dt (s : State) (a : Nat) (x : Reg) : (s.loadRegs a x).dt = s.dt := rfl
@[simp] theorem State.loadRegs_st (s : State) (a : Nat) (x : Reg) : (s.loadRegs a x).st = s.st := rfl
@[simp] theorem State.loadRegs_legacy (s : State) (a : Nat) (x : Reg) : (s.loadRegs a x).legacy = s.legacy := rfl
@[simp] theorem State.loadRegs_dirty (s : State) (a : Nat) (x : Reg) : (s.loadRegs a x).dirty = s.dirty := rfl
@[simp] theorem State.loadRegs_runState (s : State) (a : Nat) (x : Reg) : (s.loadRegs a x).runState = s.runState := rfl
@[simp] theorem State.loadRegs_slot (s : State) (a : Nat) (x : Reg) : (s.loadRegs a x).slot = s.slot := rfl
@[simp] theorem State.loadRegs_fb (s : State) (a : Nat) (x : Reg) : (s.loadRegs a x).fb = s.fb := rfl
@[simp] theorem State.loadRegs_mem (s : State) (a : Nat) (x : Reg) : (s.loadRegs a x).mem = s.mem := rfl
@[simp] theorem State.loadRegs_keysHeld (s : State) (a : Nat) (x : Reg) : (s.loadRegs a x).keysHeld = s.keysHeld := rfl
@[simp] theorem State.loadRegs_keyEvent (s : State) (a : Nat) (x : Reg) : (s.loadRegs a x).keyEvent = s.keyEvent := rfl
@[simp] theorem State.loadRegs_tone (s : State) (a : Nat) (x : Reg) : (s.loadRegs a x).tone = s.tone := rfl
@[simp] theorem State.loadRegs_hostQueue (s : State) (a : Nat) (x : Reg) : (s.loadRegs a x).hostQueue = s.hostQueue := rfl
@[simp] theorem State.loadRegs_hostIdle (s : State) (a : Nat) (x : Reg) : (s.loadRegs a x).hostIdle = s.hostIdle := rfl
@[simp] theorem State.loadRegs_randQueue (s : State) (a : Nat) (x : Reg) : (s.loadRegs a x).randQueue = s.randQueue := rfl
@[simp] theorem State.loadRegs_randDrawn (s : State) (a : Nat) (x : Reg) : (s.loadRegs a x).randDrawn = s.randDrawn := rfl
@[simp] theorem State.loadRegs_out (s : State) (a : Nat) (x : Reg) : (s.loadRegs a x).out = s.out := rfl

/-! ## `takeByte` -/

@[simp] theorem State.takeByte_regs (s : State) : (s.takeByte).regs = s.regs := rfl
@[simp] theorem State.takeByte_i (s : State) : (s.takeByte).i = s.i := rfl
@[simp] theorem State.takeByte_pc (s : State) : (s.takeByte).pc = s.pc := rfl
@[simp] theorem State.takeByte_stack (s : State) : (s.takeByte).stack = s.stack := rfl
@[simp] theorem State.takeByte_dt (s : State) : (s.takeByte).dt = s.dt := rfl
@[simp] theorem State.takeByte_st (s : State) : (s.takeByte).st = s.st := rfl
@[simp] theorem State.takeByte_legacy (s : State) : (s.takeByte).legacy = s.legacy := rfl
@[simp] theorem State.takeByte_dirty (s : State) : (s.takeByte).dirty = s.dirty := rfl
@[simp] theorem State.takeByte_runState (s : State) : (s.takeByte).runState = s.runState := rfl
@[simp] theorem State.takeByte_slot (s : State) : (s.takeByte).slot = s.slot := rfl
@[simp] theorem State.takeByte_fb (s : State) : (s.takeByte).fb = s.fb := rfl
@[simp] theorem State.takeByte_mem (s : State) : (s.takeByte).mem = s.mem := rfl
@[simp] theorem State.takeByte_keysHeld (s : State) : (s.takeByte).keysHeld = s.keysHeld := rfl
@[simp] theorem State.takeByte_keyEvent (s : State) : (s.takeByte).keyEvent = s.keyEvent := rfl
@[simp] theorem State.takeByte_tone (s : State) : (s.takeByte).tone = s.tone := rfl
@[simp] theorem State.takeByte_hostQueue (s : State) : (s.takeByte).hostQueue = s.hostQueue := rfl
@[simp] theorem State.takeByte_hostIdle (s : State) : (s.takeByte).hostIdle = s.hostIdle := rfl
@[simp] theorem State.takeByte_randQueue (s : State) : (s.takeByte).randQueue = s.randQueue.tail := rfl
@[simp] theorem State.takeByte_randDrawn (s : State) : (s.takeByte).randDrawn = s.randDrawn + 1 := rfl
@[simp] theorem State.takeByte_out (s : State) : (s.takeByte).out = s.out := rfl

/-! ## `emit` -/

@[simp] theorem State.emit_regs (s : State) (e : OutEvent) : (s.emit e).regs = s.regs := rfl
@[simp] theorem State.emit_i (s : State) (e : OutEvent) : (s.emit e).i = s.i := rfl
@[simp] theorem State.emit_pc (s : State) (e : OutEvent) : (s.emit e).pc = s.pc := rfl
@[simp] theorem State.emit_stack (s : State) (e : OutEvent) : (s.emit e).stack = s.stack := rfl
@[simp] theorem State.emit_dt (s : State) (e : OutEvent) : (s.emit e).dt = s.dt := rfl
@[simp] theorem State.emit_st (s : State) (e : OutEvent) : (s.emit e).st = s.st := rfl
@[simp] theorem State.emit_legacy (s : State) (e : OutEvent) : (s.emit e).legacy = s.legacy := rfl
@[simp] theorem State.emit_dirty (s : State) (e : OutEvent) : (s.emit e).dirty = s.dirty := rfl
@[simp] theorem State.emit_runState (s : State) (e : OutEvent) : (s.emit e).runState = s.runState := rfl
@[simp] theorem State.emit_slot (s : State) (e : OutEvent) : (s.emit e).slot = s.slot := rfl
@[simp] theorem State.emit_fb (s : State) (e : OutEvent) : (s.emit e).fb = s.fb := rfl
@[simp] theorem State.emit_mem (s : State) (e : OutEvent) : (s.emit e).mem = s.mem := rfl
@[simp] theorem State.emit_keysHeld (s : State) (e : OutEvent) : (s.emit e).keysHeld = s.keysHeld := rfl
@[simp] theorem State.emit_keyEvent (s : State) (e : OutEvent) : (s.emit e).keyEvent = s.keyEvent := rfl
@[simp] theorem State.emit_tone (s : State) (e : OutEvent) : (s.emit e).tone = s.tone := rfl
@[simp] theorem State.emit_hostQueue (s : State) (e : OutEvent) : (s.emit e).hostQueue = s.hostQueue := rfl
@[simp] theorem State.emit_hostIdle (s : State) (e : OutEvent) : (s.emit e).hostIdle = s.hostIdle := rfl
@[simp] theorem State.emit_randQueue (s : State) (e : OutEvent) : (s.emit e).randQueue = s.randQueue := rfl
@[simp] theorem State.emit_randDrawn (s : State) (e : OutEvent) : (s.emit e).randDrawn = s.randDrawn := rfl
@[simp] theorem State.emit_out (s : State) (e : OutEvent) : (s.emit e).out = e :: s.out := rfl

/-! ## `startTone` -/

@[simp] theorem State.startTone_regs (s : State) : (s.startTone).regs = s.regs := rfl
@[simp] theorem State.startTone_i (s : State) : (s.startTone).i = s.i := rfl
@[simp] theorem State.startTone_pc (s : State) : (s.startTone).pc = s.pc := rfl
@[simp] theorem State.startTone_stack (s : State) : (s.startTone).stack = s.stack := rfl
@[simp] theorem State.startTone_dt (s : State) : (s.startTone).dt = s.dt := rfl
@[simp] theorem State.startTone_st (s : State) : (s.startTone).st = s.st := rfl
@[simp] theorem State.startTone_legacy (s : State) : (s.startTone).legacy = s.legacy := rfl
@[simp] theorem State.startTone_dirty (s : State) : (s.startTone).dirty = s.dirty := rfl
@[simp] theorem State.startTone_runState (s : State) : (s.startTone).runState = s.runState := rfl
@[simp] theorem State.startTone_slot (s : State) : (s.startTone).slot = s.slot := rfl
@[simp] theorem State.startTone_fb (s : State) : (s.startTone).fb = s.fb := rfl
@[simp] theorem State.startTone_mem (s : State) : (s.startTone).mem = s.mem := rfl
@[simp] theorem State.startTone_keysHeld (s : State) : (s.startTone).keysHeld = s.keysHeld := rfl
@[simp] theorem State.startTone_keyEvent (s : State) : (s.startTone).keyEvent = s.keyEvent := rfl
@[simp] theorem State.startTone_tone (s : State) : (s.startTone).tone = true := rfl
@[simp] theorem State.startTone_hostQueue (s : State) : (s.startTone).hostQueue = s.hostQueue := rfl
@[simp] theorem State.startTone_hostIdle (s : State) : (s.startTone).hostIdle = s.hostIdle := rfl
@[simp] theorem State.startTone_randQueue (s : State) : (s.startTone).randQueue = s.randQueue := rfl
@[simp] theorem State.startTone_randDrawn (s : State) : (s.startTone).randDrawn = s.randDrawn := rfl
@[simp] theorem State.startTone_out (s : State) : (s.startTone).out = .startTone :: s.out := rfl

/-! ## `stopTone` -/

@[simp] theorem State.stopTone_regs (s : State) : (s.stopTone).regs = s.regs := rfl
@[simp] theorem State.stopTone_i (s : State) : (s.stopTone).i = s.i := rfl
@[simp] theorem State.stopTone_pc (s : State) : (s.stopTone).pc = s.pc := rfl
@[simp] theorem State.stopTone_stack (s : State) : (s.stopTone).stack = s.stack := rfl
@[simp] theorem State.stopTone_dt (s : State) : (s.stopTone).dt = s.dt := rfl
@[simp] theorem State.stopTone_st (s : State) : (s.stopTone).st = s.st := rfl
@[simp] theorem State.stopTone_legacy (s : State) : (s.stopTone).legacy = s.legacy := rfl
@[simp] theorem State.stopTone_dirty (s : State) : (s.stopTone).dirty = s.dirty := rfl
@[simp] theorem State.stopTone_runState (s : State) : (s.stopTone).runState = s.runState := rfl
@[simp] theorem State.stopTone_slot (s : State) : (s.stopTone).slot = s.slot := rfl
@[simp] theorem State.stopTone_fb (s : State) : (s.stopTone).fb = s.fb := rfl
@[simp] theorem State.stopTone_mem (s : State) : (s.stopTone).mem = s.mem := rfl
@[simp] theorem State.stopTone_keysHeld (s : State) : (s.stopTone).keysHeld = s.keysHeld := rfl
@[simp] theorem State.stopTone_keyEvent (s : State) : (s.stopTone).keyEvent = s.keyEvent := rfl
@[simp] theorem State.stopTone_tone (s : State) : (s.stopTone).tone = false := rfl
@[simp] theorem State.stopTone_hostQueue (s : State) : (s.stopTone).hostQueue = s.hostQueue := rfl
@[simp] theorem State.stopTone_hostIdle (s : State) : (s.stopTone).hostIdle = s.hostIdle := rfl
@[simp] theorem State.stopTone_randQueue (s : State) : (s.stopTone).randQueue = s.randQueue := rfl
@[simp] theorem State.stopTone_randDrawn (s : State) : (s.stopTone).randDrawn = s.randDrawn := rfl
@[simp] theorem State.stopTone_out (s : State) : (s.stopTone).out = .stopTone :: s.out := rfl

/-! ## `enterFault` -/

@[simp] theorem State.enterFault_regs (s : State) (r : FaultRecord) : (s.enterFault r).regs = s.regs := rfl
@[simp] theorem State.enterFault_i (s : State) (r : FaultRecord) : (s.enterFault r).i = s.i := rfl
@[simp] theorem State.enterFault_pc (s : State) (r : FaultRecord) : (s.enterFault r).pc = s.pc := rfl
@[simp] theorem State.enterFault_stack (s : State) (r : FaultRecord) : (s.enterFault r).stack = s.stack := rfl
@[simp] theorem State.enterFault_dt (s : State) (r : FaultRecord) : (s.enterFault r).dt = s.dt := rfl
@[simp] theorem State.enterFault_st (s : State) (r : FaultRecord) : (s.enterFault r).st = s.st := rfl
@[simp] theorem State.enterFault_legacy (s : State) (r : FaultRecord) : (s.enterFault r).legacy = s.legacy := rfl
@[simp] theorem State.enterFault_dirty (s : State) (r : FaultRecord) : (s.enterFault r).dirty = s.dirty := rfl
@[simp] theorem State.enterFault_runState (s : State) (r : FaultRecord) : (s.enterFault r).runState = .faulted r := rfl
@[simp] theorem State.enterFault_slot (s : State) (r : FaultRecord) : (s.enterFault r).slot = s.slot := rfl
@[simp] theorem State.enterFault_fb (s : State) (r : FaultRecord) : (s.enterFault r).fb = s.fb := rfl
@[simp] theorem State.enterFault_mem (s : State) (r : FaultRecord) : (s.enterFault r).mem = s.mem := rfl
@[simp] theorem State.enterFault_keysHeld (s : State) (r : FaultRecord) : (s.enterFault r).keysHeld = s.keysHeld := rfl
@[simp] theorem State.enterFault_keyEvent (s : State) (r : FaultRecord) : (s.enterFault r).keyEvent = s.keyEvent := rfl
@[simp] theorem State.enterFault_tone (s : State) (r : FaultRecord) : (s.enterFault r).tone = s.tone := rfl
@[simp] theorem State.enterFault_hostQueue (s : State) (r : FaultRecord) : (s.enterFault r).hostQueue = s.hostQueue := rfl
@[simp] theorem State.enterFault_hostIdle (s : State) (r : FaultRecord) : (s.enterFault r).hostIdle = s.hostIdle := rfl
@[simp] theorem State.enterFault_randQueue (s : State) (r : FaultRecord) : (s.enterFault r).randQueue = s.randQueue := rfl
@[simp] theorem State.enterFault_randDrawn (s : State) (r : FaultRecord) : (s.enterFault r).randDrawn = s.randDrawn := rfl
@[simp] theorem State.enterFault_out (s : State) (r : FaultRecord) : (s.enterFault r).out = .fault r :: s.out := rfl

/-! ## `setResultFlag` -/

@[simp] theorem State.setResultFlag_i (s : State) (x : Reg) (r : Byte) (f : Bool) : (s.setResultFlag x r f).i = s.i := rfl
@[simp] theorem State.setResultFlag_pc (s : State) (x : Reg) (r : Byte) (f : Bool) : (s.setResultFlag x r f).pc = s.pc := rfl
@[simp] theorem State.setResultFlag_stack (s : State) (x : Reg) (r : Byte) (f : Bool) : (s.setResultFlag x r f).stack = s.stack := rfl
@[simp] theorem State.setResultFlag_dt (s : State) (x : Reg) (r : Byte) (f : Bool) : (s.setResultFlag x r f).dt = s.dt := rfl
@[simp] theorem State.setResultFlag_st (s : State) (x : Reg) (r : Byte) (f : Bool) : (s.setResultFlag x r f).st = s.st := rfl
@[simp] theorem State.setResultFlag_legacy (s : State) (x : Reg) (r : Byte) (f : Bool) : (s.setResultFlag x r f).legacy = s.legacy := rfl
@[simp] theorem State.setResultFlag_dirty (s : State) (x : Reg) (r : Byte) (f : Bool) : (s.setResultFlag x r f).dirty = s.dirty := rfl
@[simp] theorem State.setResultFlag_runState (s : State) (x : Reg) (r : Byte) (f : Bool) : (s.setResultFlag x r f).runState = s.runState := rfl
@[simp] theorem State.setResultFlag_slot (s : State) (x : Reg) (r : Byte) (f : Bool) : (s.setResultFlag x r f).slot = s.slot := rfl
@[simp] theorem State.setResultFlag_fb (s : State) (x : Reg) (r : Byte) (f : Bool) : (s.setResultFlag x r f).fb = s.fb := rfl
@[simp] theorem State.setResultFlag_mem (s : State) (x : Reg) (r : Byte) (f : Bool) : (s.setResultFlag x r f).mem = s.mem := rfl
@[simp] theorem State.setResultFlag_keysHeld (s : State) (x : Reg) (r : Byte) (f : Bool) : (s.setResultFlag x r f).keysHeld = s.keysHeld := rfl
@[simp] theorem State.setResultFlag_keyEvent (s : State) (x : Reg) (r : Byte) (f : Bool) : (s.setResultFlag x r f).keyEvent = s.keyEvent := rfl
@[simp] theorem State.setResultFlag_tone (s : State) (x : Reg) (r : Byte) (f : Bool) : (s.setResultFlag x r f).tone = s.tone := rfl
@[simp] theorem State.setResultFlag_hostQueue (s : State) (x : Reg) (r : Byte) (f : Bool) : (s.setResultFlag x r f).hostQueue = s.hostQueue := rfl
@[simp] theorem State.setResultFlag_hostIdle (s : State) (x : Reg) (r : Byte) (f : Bool) : (s.setResultFlag x r f).hostIdle = s.hostIdle := rfl
@[simp] theorem State.setResultFlag_randQueue (s : State) (x : Reg) (r : Byte) (f : Bool) : (s.setResultFlag x r f).randQueue = s.randQueue := rfl
@[simp] theorem State.setResultFlag_randDrawn (s : State) (x : Reg) (r : Byte) (f : Bool) : (s.setResultFlag x r f).randDrawn = s.randDrawn := rfl
@[simp] theorem State.setResultFlag_out (s : State) (x : Reg) (r : Byte) (f : Bool) : (s.setResultFlag x r f).out = s.out := rfl

/-! ## `drawSprite` -/

@[simp] theorem State.drawSprite_i (s : State) (x y : Reg) (n : BitVec 4) : (s.drawSprite x y n).i = s.i := rfl
@[simp] theorem State.drawSprite_pc (s : State) (x y : Reg) (n : BitVec 4) : (s.drawSprite x y n).pc = s.pc := rfl
@[simp] theorem State.drawSprite_stack (s : State) (x y : Reg) (n : BitVec 4) : (s.drawSprite x y n).stack = s.stack := rfl
@[simp] theorem State.drawSprite_dt (s : State) (x y : Reg) (n : BitVec 4) : (s.drawSprite x y n).dt = s.dt := rfl
@[simp] theorem State.drawSprite_st (s : State) (x y : Reg) (n : BitVec 4) : (s.drawSprite x y n).st = s.st := rfl
@[simp] theorem State.drawSprite_legacy (s : State) (x y : Reg) (n : BitVec 4) : (s.drawSprite x y n).legacy = s.legacy := rfl
@[simp] theorem State.drawSprite_dirty (s : State) (x y : Reg) (n : BitVec 4) : (s.drawSprite x y n).dirty = true := rfl
@[simp] theorem State.drawSprite_runState (s : State) (x y : Reg) (n : BitVec 4) : (s.drawSprite x y n).runState = s.runState := rfl
@[simp] theorem State.drawSprite_slot (s : State) (x y : Reg) (n : BitVec 4) : (s.drawSprite x y n).slot = s.slot := rfl
@[simp] theorem State.drawSprite_mem (s : State) (x y : Reg) (n : BitVec 4) : (s.drawSprite x y n).mem = s.mem := rfl
@[simp] theorem State.drawSprite_keysHeld (s : State) (x y : Reg) (n : BitVec 4) : (s.drawSprite x y n).keysHeld = s.keysHeld := rfl
@[simp] theorem State.drawSprite_keyEvent (s : State) (x y : Reg) (n : BitVec 4) : (s.drawSprite x y n).keyEvent = s.keyEvent := rfl
@[simp] theorem State.drawSprite_tone (s : State) (x y : Reg) (n : BitVec 4) : (s.drawSprite x y n).tone = s.tone := rfl
@[simp] theorem State.drawSprite_hostQueue (s : State) (x y : Reg) (n : BitVec 4) : (s.drawSprite x y n).hostQueue = s.hostQueue := rfl
@[simp] theorem State.drawSprite_hostIdle (s : State) (x y : Reg) (n : BitVec 4) : (s.drawSprite x y n).hostIdle = s.hostIdle := rfl
@[simp] theorem State.drawSprite_randQueue (s : State) (x y : Reg) (n : BitVec 4) : (s.drawSprite x y n).randQueue = s.randQueue := rfl
@[simp] theorem State.drawSprite_randDrawn (s : State) (x y : Reg) (n : BitVec 4) : (s.drawSprite x y n).randDrawn = s.randDrawn := rfl
@[simp] theorem State.drawSprite_out (s : State) (x y : Reg) (n : BitVec 4) : (s.drawSprite x y n).out = s.out := rfl

/-! ## `skipIf` -/

@[simp] theorem State.skipIf_regs (s : State) (c : Bool) : (s.skipIf c).regs = s.regs := by cases c <;> rfl
@[simp] theorem State.skipIf_i (s : State) (c : Bool) : (s.skipIf c).i = s.i := by cases c <;> rfl
@[simp] theorem State.skipIf_pc (s : State) (c : Bool) : (s.skipIf c).pc = if c then s.pc + 2 else s.pc := by cases c <;> rfl
@[simp] theorem State.skipIf_stack (s : State) (c : Bool) : (s.skipIf c).stack = s.stack := by cases c <;> rfl
@[simp] theorem State.skipIf_dt (s : State) (c : Bool) : (s.skipIf c).dt = s.dt := by cases c <;> rfl
@[simp] theorem State.skipIf_st (s : State) (c : Bool) : (s.skipIf c).st = s.st := by cases c <;> rfl
@[simp] theorem State.skipIf_legacy (s : State) (c : Bool) : (s.skipIf c).legacy = s.legacy := by cases c <;> rfl
@[simp] theorem State.skipIf_dirty (s : State) (c : Bool) : (s.skipIf c).dirty = s.dirty := by cases c <;> rfl
@[simp] theorem State.skipIf_runState (s : State) (c : Bool) : (s.skipIf c).runState = s.runState := by cases c <;> rfl
@[simp] theorem State.skipIf_slot (s : State) (c : Bool) : (s.skipIf c).slot = s.slot := by cases c <;> rfl
@[simp] theorem State.skipIf_fb (s : State) (c : Bool) : (s.skipIf c).fb = s.fb := by cases c <;> rfl
@[simp] theorem State.skipIf_mem (s : State) (c : Bool) : (s.skipIf c).mem = s.mem := by cases c <;> rfl
@[simp] theorem State.skipIf_keysHeld (s : State) (c : Bool) : (s.skipIf c).keysHeld = s.keysHeld := by cases c <;> rfl
@[simp] theorem State.skipIf_keyEvent (s : State) (c : Bool) : (s.skipIf c).keyEvent = s.keyEvent := by cases c <;> rfl
@[simp] theorem State.skipIf_tone (s : State) (c : Bool) : (s.skipIf c).tone = s.tone := by cases c <;> rfl
@[simp] theorem State.skipIf_hostQueue (s : State) (c : Bool) : (s.skipIf c).hostQueue = s.hostQueue := by cases c <;> rfl
@[simp] theorem State.skipIf_hostIdle (s : State) (c : Bool) : (s.skipIf c).hostIdle = s.hostIdle := by cases c <;> rfl
@[simp] theorem State.skipIf_randQueue (s : State) (c : Bool) : (s.skipIf c).randQueue = s.randQueue := by cases c <;> rfl
@[simp] theorem State.skipIf_randDrawn (s : State) (c : Bool) : (s.skipIf c).randDrawn = s.randDrawn := by cases c <;> rfl
@[simp] theorem State.skipIf_out (s : State) (c : Bool) : (s.skipIf c).out = s.out := by cases c <;> rfl

/-! ## `legacyAdvance` -/

@[simp] theorem State.legacyAdvance_regs (s : State) (x : Reg) : (s.legacyAdvance x).regs = s.regs := by unfold State.legacyAdvance; split <;> rfl
@[simp] theorem State.legacyAdvance_i (s : State) (x : Reg) : (s.legacyAdvance x).i = if s.legacy then s.i + BitVec.ofNat 16 (x.val + 1) else s.i := by unfold State.legacyAdvance; split <;> rfl
@[simp] theorem State.legacyAdvance_pc (s : State) (x : Reg) : (s.legacyAdvance x).pc = s.pc := by unfold State.legacyAdvance; split <;> rfl
@[simp] theorem State.legacyAdvance_stack (s : State) (x : Reg) : (s.legacyAdvance x).stack = s.stack := by unfold State.legacyAdvance; split <;> rfl
@[simp] theorem State.legacyAdvance_dt (s : State) (x : Reg) : (s.legacyAdvance x).dt = s.dt := by unfold State.legacyAdvance; split <;> rfl
@[simp] theorem State.legacyAdvance_st (s : State) (x : Reg) : (s.legacyAdvance x).st = s.st := by unfold State.legacyAdvance; split <;> rfl
@[simp] theorem State.legacyAdvance_legacy (s : State) (x : Reg) : (s.legacyAdvance x).legacy = s.legacy := by unfold State.legacyAdvance; split <;> rfl
@[simp] theorem State.legacyAdvance_dirty (s : State) (x : Reg) : (s.legacyAdvance x).dirty = s.dirty := by unfold State.legacyAdvance; split <;> rfl
@[simp] theorem State.legacyAdvance_runState (s : State) (x : Reg) : (s.legacyAdvance x).runState = s.runState := by unfold State.legacyAdvance; split <;> rfl
@[simp] theorem State.legacyAdvance_slot (s : State) (x : Reg) : (s.legacyAdvance x).slot = s.slot := by unfold State.legacyAdvance; split <;> rfl
@[simp] theorem State.legacyAdvance_fb (s : State) (x : Reg) : (s.legacyAdvance x).fb = s.fb := by unfold State.legacyAdvance; split <;> rfl
@[simp] theorem State.legacyAdvance_mem (s : State) (x : Reg) : (s.legacyAdvance x).mem = s.mem := by unfold State.legacyAdvance; split <;> rfl
@[simp] theorem State.legacyAdvance_keysHeld (s : State) (x : Reg) : (s.legacyAdvance x).keysHeld = s.keysHeld := by unfold State.legacyAdvance; split <;> rfl
@[simp] theorem State.legacyAdvance_keyEvent (s : State) (x : Reg) : (s.legacyAdvance x).keyEvent = s.keyEvent := by unfold State.legacyAdvance; split <;> rfl
@[simp] theorem State.legacyAdvance_tone (s : State) (x : Reg) : (s.legacyAdvance x).tone = s.tone := by unfold State.legacyAdvance; split <;> rfl
@[simp] theorem State.legacyAdvance_hostQueue (s : State) (x : Reg) : (s.legacyAdvance x).hostQueue = s.hostQueue := by unfold State.legacyAdvance; split <;> rfl
@[simp] theorem State.legacyAdvance_hostIdle (s : State) (x : Reg) : (s.legacyAdvance x).hostIdle = s.hostIdle := by unfold State.legacyAdvance; split <;> rfl
@[simp] theorem State.legacyAdvance_randQueue (s : State) (x : Reg) : (s.legacyAdvance x).randQueue = s.randQueue := by unfold State.legacyAdvance; split <;> rfl
@[simp] theorem State.legacyAdvance_randDrawn (s : State) (x : Reg) : (s.legacyAdvance x).randDrawn = s.randDrawn := by unfold State.legacyAdvance; split <;> rfl
@[simp] theorem State.legacyAdvance_out (s : State) (x : Reg) : (s.legacyAdvance x).out = s.out := by unfold State.legacyAdvance; split <;> rfl

/-! ## `takeKey` -/

@[simp] theorem State.takeKey_i (s : State) (x : Reg) : (s.takeKey x).i = s.i := by unfold State.takeKey; split <;> simp_all
@[simp] theorem State.takeKey_pc (s : State) (x : Reg) : (s.takeKey x).pc = if s.keyEvent = none then s.pc - 2 else s.pc := by unfold State.takeKey; split <;> simp_all
@[simp] theorem State.takeKey_stack (s : State) (x : Reg) : (s.takeKey x).stack = s.stack := by unfold State.takeKey; split <;> simp_all
@[simp] theorem State.takeKey_dt (s : State) (x : Reg) : (s.takeKey x).dt = s.dt := by unfold State.takeKey; split <;> simp_all
@[simp] theorem State.takeKey_st (s : State) (x : Reg) : (s.takeKey x).st = s.st := by unfold State.takeKey; split <;> simp_all
@[simp] theorem State.takeKey_legacy (s : State) (x : Reg) : (s.takeKey x).legacy = s.legacy := by unfold State.takeKey; split <;> simp_all
@[simp] theorem State.takeKey_dirty (s : State) (x : Reg) : (s.takeKey x).dirty = s.dirty := by unfold State.takeKey; split <;> simp_all
@[simp] theorem State.takeKey_runState (s : State) (x : Reg) : (s.takeKey x).runState = s.runState := by unfold State.takeKey; split <;> simp_all
@[simp] theorem State.takeKey_slot (s : State) (x : Reg) : (s.takeKey x).slot = s.slot := by unfold State.takeKey; split <;> simp_all
@[simp] theorem State.takeKey_fb (s : State) (x : Reg) : (s.takeKey x).fb = s.fb := by unfold State.takeKey; split <;> simp_all
@[simp] theorem State.takeKey_mem (s : State) (x : Reg) : (s.takeKey x).mem = s.mem := by unfold State.takeKey; split <;> simp_all
@[simp] theorem State.takeKey_keysHeld (s : State) (x : Reg) : (s.takeKey x).keysHeld = s.keysHeld := by unfold State.takeKey; split <;> simp_all
@[simp] theorem State.takeKey_keyEvent (s : State) (x : Reg) : (s.takeKey x).keyEvent = none := by unfold State.takeKey; split <;> simp_all
@[simp] theorem State.takeKey_tone (s : State) (x : Reg) : (s.takeKey x).tone = s.tone := by unfold State.takeKey; split <;> simp_all
@[simp] theorem State.takeKey_hostQueue (s : State) (x : Reg) : (s.takeKey x).hostQueue = s.hostQueue := by unfold State.takeKey; split <;> simp_all
@[simp] theorem State.takeKey_hostIdle (s : State) (x : Reg) : (s.takeKey x).hostIdle = s.hostIdle := by unfold State.takeKey; split <;> simp_all
@[simp] theorem State.takeKey_randQueue (s : State) (x : Reg) : (s.takeKey x).randQueue = s.randQueue := by unfold State.takeKey; split <;> simp_all
@[simp] theorem State.takeKey_randDrawn (s : State) (x : Reg) : (s.takeKey x).randDrawn = s.randDrawn := by unfold State.takeKey; split <;> simp_all
@[simp] theorem State.takeKey_out (s : State) (x : Reg) : (s.takeKey x).out = s.out := by unfold State.takeKey; split <;> simp_all

/-! ## Reading a register -/

theorem State.reg_eq_of_regs_eq (s t : State) (h : t.regs = s.regs) (r : Reg) : t.reg r = s.reg r := by
  simp [State.reg, h]

theorem State.reg_setReg (s : State) (r q : Reg) (b : Byte) :
    (s.setReg r b).reg q = if q = r then b else s.reg q := by
  simp only [State.reg, State.setReg_regs, Fin.getElem_fin, Vector.getElem_set, Fin.ext_iff]
  split <;> split <;> first | rfl | omega

@[simp] theorem State.reg_setReg_same (s : State) (r : Reg) (b : Byte) : (s.setReg r b).reg r = b := by
  simp [State.reg_setReg]

@[simp] theorem State.reg_setReg_other (s : State) (r q : Reg) (b : Byte) (h : q ≠ r) :
    (s.setReg r b).reg q = s.reg q := by
  simp [State.reg_setReg, h]

theorem State.reg_setResultFlag (s : State) (x q : Reg) (r : Byte) (f : Bool) :
    (s.setResultFlag x r f).reg q = if q = VF then flagByte f else if q = x then r else s.reg q := by
  simp [State.setResultFlag, State.reg_setReg]

@[simp] theorem State.reg_loadRegs (s : State) (a : Nat) (x q : Reg) :
    (s.loadRegs a x).reg q = if q ≤ x then s.mem.byte (a + q.val) else s.reg q := by
  simp [State.loadRegs, State.reg]

theorem State.reg_drawSprite (s : State) (x y q : Reg) (n : BitVec 4) :
    (s.drawSprite x y n).reg q =
      if q = VF then
        flagByte (drawRows (s.spriteCol x) (s.mem.bytes (s.ea 0) n.toNat) (s.spriteRow y) s.fb false).2
      else s.reg q := by
  change (s.setReg VF _).reg q = _
  rw [State.reg_setReg]

@[simp] theorem State.drawSprite_fb (s : State) (x y : Reg) (n : BitVec 4) :
    (s.drawSprite x y n).fb =
      (drawRows (s.spriteCol x) (s.mem.bytes (s.ea 0) n.toNat) (s.spriteRow y) s.fb false).1 := rfl

theorem State.reg_takeKey (s : State) (x q : Reg) :
    (s.takeKey x).reg q =
      match s.keyEvent with
      | some k => if q = x then BitVec.ofNat 8 k.val else s.reg q
      | none => s.reg q := by
  rcases h : s.keyEvent with _ | k <;> simp only [State.takeKey, h]
  · rfl
  · change (s.setReg x _).reg q = _
    rw [State.reg_setReg]

@[simp] theorem State.reg_setI (s : State) (w : Word) (q : Reg) : (s.setI w).reg q = s.reg q := rfl
@[simp] theorem State.reg_setPc (s : State) (w : Word) (q : Reg) : (s.setPc w).reg q = s.reg q := rfl
@[simp] theorem State.reg_push (s : State) (w : Word) (q : Reg) : (s.push w).reg q = s.reg q := rfl
@[simp] theorem State.reg_storeRun (s : State) (a : Nat) (bs : List Byte) (q : Reg) : (s.storeRun a bs).reg q = s.reg q := rfl
@[simp] theorem State.reg_takeByte (s : State) (q : Reg) : (s.takeByte).reg q = s.reg q := rfl
@[simp] theorem State.reg_emit (s : State) (e : OutEvent) (q : Reg) : (s.emit e).reg q = s.reg q := rfl
@[simp] theorem State.reg_startTone (s : State) (q : Reg) : (s.startTone).reg q = s.reg q := rfl
@[simp] theorem State.reg_stopTone (s : State) (q : Reg) : (s.stopTone).reg q = s.reg q := rfl
@[simp] theorem State.reg_enterFault (s : State) (r : FaultRecord) (q : Reg) : (s.enterFault r).reg q = s.reg q := rfl
@[simp] theorem State.reg_skipIf (s : State) (c : Bool) (q : Reg) : (s.skipIf c).reg q = s.reg q := by
  simp [State.reg]
@[simp] theorem State.reg_legacyAdvance (s : State) (x : Reg) (q : Reg) : (s.legacyAdvance x).reg q = s.reg q := by
  simp [State.reg]

end Sys2Proof.Machine
end

