-- ==== Sys2Proof/Laws/Memory.lean ====
section
/-! SUPPORT. Memory: reading after a write, reading after a run of writes, and that every operation keeps the canonical form. -/

namespace Sys2Proof.Machine

theorem initialByte_eq_zero {a : Nat} (h : 80 ≤ a) : initialByte a = 0 := by
  simp [initialByte, Nat.not_lt.mpr h]

/-! ## What an address reads as -/

theorem Memory.byte_forget (m : Memory) (a b : Nat) :
    (m.forget a).byte b = if b = a then initialByte a else m.byte b := by
  induction m with
  | nil => simp only [Memory.forget, List.filter_nil, Memory.byte]; split <;> simp_all
  | cons c m ih =>
    have step : Memory.forget (c :: m) a = if c.1 = a then Memory.forget m a else c :: Memory.forget m a := by
      simp [Memory.forget, List.filter_cons]
    rw [step]
    by_cases h1 : c.1 = a
    · rw [if_pos h1, ih]
      by_cases h2 : b = a
      · simp [h2]
      · have : c.1 ≠ b := by omega
        simp [h2, Memory.byte, this]
    · rw [if_neg h1]
      simp only [Memory.byte, ih]
      by_cases h2 : b = a
      · have : c.1 ≠ b := by omega
        simp [h2, h1]
      · simp [h2]

theorem Memory.byte_place (m : Memory) (a b : Nat) (v : Byte) (h : ∀ c ∈ m, c.1 ≠ a) :
    (m.place a v).byte b = if b = a then v else m.byte b := by
  induction m with
  | nil => simp only [Memory.place, Memory.byte, eq_comm]
  | cons c m ih =>
    have hc : c.1 ≠ a := h c (by simp)
    have ih' := ih fun d hd => h d (by simp [hd])
    unfold Memory.place
    split
    · simp only [Memory.byte]
      by_cases h2 : b = a
      · simp [h2]
      · simp [h2, Ne.symm h2]
    · simp only [Memory.byte, ih']
      by_cases h2 : b = a
      · subst h2; simp [hc]
      · simp [h2]

theorem Memory.not_mem_forget (m : Memory) (a : Nat) : ∀ c ∈ m.forget a, c.1 ≠ a := by
  intro c hc
  simp [Memory.forget] at hc
  exact hc.2

/-- A write sets its own address and leaves every other address alone (R64, R72). -/
@[simp] theorem Memory.byte_write (m : Memory) (a b : Nat) (v : Byte) :
    (m.write a v).byte b = if b = a then v else m.byte b := by
  unfold Memory.write
  split
  · rename_i h
    rw [Memory.byte_forget, h]
  · rw [Memory.byte_place _ _ _ _ (Memory.not_mem_forget m a), Memory.byte_forget]
    split <;> simp_all

/-- A run of writes sets the addresses of the run, in order, and no other. -/
theorem Memory.byte_writeList (m : Memory) (a b : Nat) (vs : List Byte) :
    (m.writeList a vs).byte b = if a ≤ b then vs.getD (b - a) (m.byte b) else m.byte b := by
  induction vs generalizing m a with
  | nil => simp [Memory.writeList]
  | cons v vs ih =>
    rw [Memory.writeList, ih, Memory.byte_write]
    by_cases h1 : b = a
    · subst h1; simp
    · by_cases h2 : a ≤ b
      · have h3 : a + 1 ≤ b := by omega
        have h4 : b - a = (b - (a + 1)) + 1 := by omega
        simp [h1, h2, h3, h4]
      · have h3 : ¬ a + 1 ≤ b := by omega
        simp [h1, h2, h3]

theorem Memory.byte_writeList_outside (m : Memory) (a b : Nat) (vs : List Byte)
    (h : b < a ∨ a + vs.length ≤ b) : (m.writeList a vs).byte b = m.byte b := by
  rw [Memory.byte_writeList]
  split
  · rw [List.getD_eq_default]; omega
  · rfl

theorem Memory.byte_writeList_inside (m : Memory) (a : Nat) (vs : List Byte) (k : Nat) (h : k < vs.length) :
    (m.writeList a vs).byte (a + k) = vs[k] := by
  rw [Memory.byte_writeList]
  simp [h]

theorem Memory.length_bytes (m : Memory) (a k : Nat) : (m.bytes a k).length = k := by
  induction k generalizing a with
  | zero => rfl
  | succ k ih => simp [Memory.bytes, ih]

theorem Memory.getElem_bytes (m : Memory) (a k j : Nat) (h : j < (m.bytes a k).length) :
    (m.bytes a k)[j] = m.byte (a + j) := by
  induction k generalizing a j with
  | zero => simp [Memory.bytes] at h
  | succ k ih =>
    cases j with
    | zero => simp [Memory.bytes]
    | succ j => simp only [Memory.bytes, List.getElem_cons_succ]; rw [ih]; congr 1; omega

/-! ## The canonical form -/

theorem Memory.wf_nil : Memory.wf [] := by simp [Memory.wf]

theorem Memory.wf_forget {m : Memory} (h : m.wf) (a : Nat) : (m.forget a).wf := by
  refine ⟨h.1.filter _, fun c hc => h.2 c ?_⟩
  simp [Memory.forget] at hc
  exact hc.1

theorem Memory.mem_place (m : Memory) (a : Nat) (v : Byte) (c : Host.Cell) :
    c ∈ m.place a v ↔ c = (a, v) ∨ c ∈ m := by
  induction m with
  | nil => simp [Memory.place]
  | cons d m ih =>
    unfold Memory.place
    split
    · simp
    · simp only [List.mem_cons, ih]; tauto

theorem Memory.wf_place {m : Memory} (h : m.wf) {a : Nat} {v : Byte} (ha : a < 4096) (hv : v ≠ initialByte a)
    (hm : ∀ c ∈ m, c.1 ≠ a) : (m.place a v).wf := by
  refine ⟨?_, fun c hc => ?_⟩
  · induction m with
    | nil => simp [Memory.place]
    | cons d m ih =>
      have hd : d.1 ≠ a := hm d (by simp)
      have hp := List.pairwise_cons.mp h.1
      unfold Memory.place
      split
      · rename_i hlt
        refine List.pairwise_cons.mpr ⟨fun c hc => ?_, h.1⟩
        rcases List.mem_cons.mp hc with rfl | hc
        · exact hlt
        · exact lt_trans hlt (hp.1 c hc)
      · refine List.pairwise_cons.mpr ⟨fun c hc => ?_, ih ⟨hp.2, fun c hc => h.2 c (by simp [hc])⟩
          fun c hc => hm c (by simp [hc])⟩
        rcases (Memory.mem_place m a v c).mp hc with rfl | hc
        · simp only; omega
        · exact hp.1 c hc
  · rcases (Memory.mem_place m a v c).mp hc with rfl | hc
    · exact ⟨ha, hv⟩
    · exact h.2 c hc

/-- A write inside the address space keeps the canonical form. -/
theorem Memory.wf_write {m : Memory} (h : m.wf) {a : Nat} (v : Byte) (ha : a < 4096) : (m.write a v).wf := by
  unfold Memory.write
  split
  · exact Memory.wf_forget h a
  · exact Memory.wf_place (Memory.wf_forget h a) ha (by assumption) (Memory.not_mem_forget m a)

theorem Memory.wf_writeList {m : Memory} (h : m.wf) {a : Nat} (vs : List Byte) (ha : a + vs.length ≤ 4096) :
    (m.writeList a vs).wf := by
  induction vs generalizing m a with
  | nil => exact h
  | cons v vs ih =>
    simp only [List.length_cons] at ha
    exact ih (Memory.wf_write h v (by omega)) (by omega)

/-! ## Memory after reset -/

theorem Memory.ofBytes_range (a : Nat) (bs : List Byte) :
    ∀ c ∈ Memory.ofBytes a bs, a ≤ c.1 ∧ c.1 < a + bs.length ∧ c.2 ≠ initialByte c.1 := by
  induction bs generalizing a with
  | nil => simp [Memory.ofBytes]
  | cons b bs ih =>
    intro c hc
    unfold Memory.ofBytes at hc
    split at hc
    · have := ih (a + 1) c hc
      simp only [List.length_cons]; exact ⟨by omega, by omega, this.2.2⟩
    · rcases List.mem_cons.mp hc with rfl | hc
      · exact ⟨by simp, by simp, by assumption⟩
      · have := ih (a + 1) c hc
        simp only [List.length_cons]; exact ⟨by omega, by omega, this.2.2⟩

theorem Memory.ofBytes_sorted (a : Nat) (bs : List Byte) :
    (Memory.ofBytes a bs).Pairwise (fun c d => c.1 < d.1) := by
  induction bs generalizing a with
  | nil => simp [Memory.ofBytes]
  | cons b bs ih =>
    unfold Memory.ofBytes
    split
    · exact ih _
    · refine List.pairwise_cons.mpr ⟨fun c hc => ?_, ih _⟩
      have := Memory.ofBytes_range (a + 1) bs c hc
      simp only; omega

theorem Memory.byte_of_not_listed (m : Memory) (a : Nat) (h : ∀ c ∈ m, c.1 ≠ a) : m.byte a = initialByte a := by
  induction m with
  | nil => rfl
  | cons c m ih =>
    have := h c (by simp)
    simp only [Memory.byte, this, if_false]
    exact ih fun d hd => h d (by simp [hd])

theorem Memory.byte_append (m n : Memory) (a : Nat) :
    (m ++ n : Memory).byte a = if (∃ c ∈ m, c.1 = a) then m.byte a else n.byte a := by
  induction m with
  | nil => simp
  | cons c m ih =>
    change (if c.1 = a then c.2 else Memory.byte (m ++ n) a) = _
    rw [ih]
    by_cases h : c.1 = a
    · simp [h, Memory.byte]
    · simp [h, Memory.byte]

theorem Memory.byte_ofBytes (a b : Nat) (bs : List Byte) :
    (Memory.ofBytes a bs).byte b = if a ≤ b then bs.getD (b - a) (initialByte b) else initialByte b := by
  induction bs generalizing a with
  | nil => simp [Memory.ofBytes, Memory.byte]
  | cons v bs ih =>
    have key : (Memory.ofBytes a (v :: bs)).byte b = if a = b then v else (Memory.ofBytes (a + 1) bs).byte b := by
      rw [Memory.ofBytes]
      split
      · rename_i h
        by_cases hb : a = b
        · subst hb
          rw [ih]; simp [h]
        · simp [hb]
      · rfl
    rw [key, ih]
    by_cases h1 : a = b
    · subst h1; simp
    · by_cases h2 : a ≤ b
      · have h3 : a + 1 ≤ b := by omega
        have h4 : b - a = (b - (a + 1)) + 1 := by omega
        simp [h1, h2, h3, h4]
      · have h3 : ¬ a + 1 ≤ b := by omega
        simp [h1, h2, h3]

theorem loadedMemory_wf (font : Vector Byte 80) (image : List Byte) : (loadedMemory font image).wf := by
  have hf := Memory.ofBytes_range 0 font.toList
  have hi : ∀ c ∈ (if image.length ≤ Config.progMax then Memory.ofBytes Config.progBase image else []),
      512 ≤ c.1 ∧ c.1 < 4096 ∧ c.2 ≠ initialByte c.1 := by
    intro c hc
    split at hc
    · have := Memory.ofBytes_range Config.progBase image c hc
      simp only [Config.progBase, Config.progMax] at *
      exact ⟨by omega, by omega, this.2.2⟩
    · simp at hc
  refine ⟨List.pairwise_append.mpr ⟨Memory.ofBytes_sorted _ _, ?_, ?_⟩, ?_⟩
  · split
    · exact Memory.ofBytes_sorted _ _
    · simp
  · intro c hc d hd
    have h1 := hf c hc
    have h2 := hi d hd
    simp at h1
    omega
  · intro c hc
    rcases List.mem_append.mp hc with hc | hc
    · have := hf c hc
      simp only [Config.memSize]
      simp at this
      exact ⟨by omega, this.2⟩
    · have := hi c hc
      simp only [Config.memSize]
      exact ⟨this.2.1, this.2.2⟩

end Sys2Proof.Machine
end

