-- ==== Sys2Proof/Laws/Ops.lean ====
section
/-! SUPPORT. One lemma per shared operation: what a guarded effect can answer, when each check reports, and what the check of
a run says of the reads and writes made inside it. -/

namespace Sys2Proof.Machine

/-! ## Guarded effects (R126) -/

theorem guarded_next_iff {i : Instr} {c : Option Problem} {s t u : State} :
    guarded i c s t = .next u ↔ c = none ∧ t = u := by
  cases c <;> simp [guarded, raise]

theorem guarded_fault_iff {i : Instr} {c : Option Problem} {s t : State} {r : FaultRecord} :
    guarded i c s t = .fault (.raised r) ↔ ∃ p, c = some p ∧ faultRecord i p s = r := by
  cases c <;> simp [guarded, raise]

theorem guarded_not_refused {i : Instr} {c : Option Problem} {s t : State} {r : Refusal} :
    guarded i c s t ≠ .refused r := by
  cases c <;> simp [guarded, raise]

theorem guarded_none (i : Instr) (s t : State) : guarded i none s t = .next t := rfl

theorem guarded_some (i : Instr) (p : Problem) (s t : State) :
    guarded i (some p) s t = .fault (.raised (faultRecord i p s)) := rfl

/-! ## When a check reports nothing -/

theorem readCheck_none_iff {a : Nat} : readCheck a = none ↔ a < 4096 := by
  simp [readCheck]

theorem writeCheck_none_iff {a : Nat} : writeCheck a = none ↔ 80 ≤ a ∧ a < 4096 := by
  unfold writeCheck
  simp only [Config.memSize, Config.fontSize]
  split
  · simp; omega
  · split <;> simp <;> omega

theorem runCheck_none_iff {a k : Nat} : runCheck a k = none ↔ k = 0 ∨ a + k ≤ 4096 := by
  unfold runCheck
  simp only [Config.memSize]
  split <;> simp <;> omega

theorem writeRunCheck_none_iff {a k : Nat} (hk : 0 < k) : writeRunCheck a k = none ↔ 80 ≤ a ∧ a + k ≤ 4096 := by
  unfold writeRunCheck
  have h := runCheck_none_iff (a := a) (k := k)
  split
  · rename_i p hp
    simp only [hp, reduceCtorEq, false_iff] at h ⊢
    omega
  · rename_i hp
    simp only [hp, true_iff] at h
    simp only [Config.fontSize]
    split <;> simp <;> omega

theorem checkTarget_none_iff {t : Nat} : checkTarget t = none ↔ 512 ≤ t ∧ t ≤ 4095 := by
  unfold checkTarget
  simp only [Config.memSize, Config.progBase]
  split
  · simp; omega
  · split <;> simp <;> omega

theorem pushCheck_none_iff {s : State} {n : Nat} : pushCheck s n = none ↔ s.sp < 12 := by
  unfold pushCheck
  simp only [Config.stackDepth]
  split <;> simp <;> omega

theorem fetchCheck_none_iff {pc : Word} : fetchCheck pc = none ↔ pc.toNat ≤ 4094 := by
  unfold fetchCheck
  simp only [Config.memSize]
  split <;> simp <;> omega

theorem indexSumCheck_none_iff {n : Nat} : indexSumCheck n = none ↔ n ≤ 65535 := by
  unfold indexSumCheck
  split <;> simp <;> omega

theorem glyphCheck_none_iff {b : Byte} : glyphCheck b = none ↔ b.toNat ≤ 15 := by
  unfold glyphCheck
  split <;> simp <;> omega

theorem keyCheck_none_iff {b : Byte} : keyCheck b = none ↔ b.toNat ≤ 15 := by
  unfold keyCheck
  split <;> simp <;> omega

/-- A run that passes its check passes R63's check at every byte. -/
theorem readCheck_of_runCheck {a k j : Nat} (h : runCheck a k = none) (hj : j < k) : readCheck (a + j) = none := by
  rw [readCheck_none_iff]
  rw [runCheck_none_iff] at h
  omega

/-- A run that passes its check passes R64's checks at every byte. -/
theorem writeCheck_of_writeRunCheck {a k j : Nat} (h : writeRunCheck a k = none) (hj : j < k) :
    writeCheck (a + j) = none := by
  rw [writeCheck_none_iff]
  rw [writeRunCheck_none_iff (by omega)] at h
  omega

/-! ## Operands -/

theorem length_bcdDigits (b : Byte) : (bcdDigits b).length = 3 := rfl

theorem length_regsUpTo (s : State) (x : Reg) : (s.regsUpTo x).length = x.val + 1 := by
  simp [State.regsUpTo]

theorem getElem_regsUpTo (s : State) (x : Reg) (k : Nat) (h : k < (s.regsUpTo x).length) :
    (s.regsUpTo x)[k] = s.reg ⟨k, by rw [length_regsUpTo] at h; omega⟩ := by
  simp [State.regsUpTo, State.reg]

theorem flagByte_eq_zero_or_one (b : Bool) : flagByte b = 0 ∨ flagByte b = 1 := by
  cases b <;> simp [flagByte]

theorem State.reg_eq_of_not_listed {s t : State} {parts : List Part} (h : UnchangedBut parts s t) {r : Reg}
    (hr : Part.reg r ∉ parts) : t.reg r = s.reg r := h _ hr

theorem mem_regPartsUpTo {x : Reg} {p : Part} : p ∈ regPartsUpTo x ↔ ∃ r, r ≤ x ∧ p = .reg r := by
  simp only [regPartsUpTo, List.mem_map, List.mem_filter, List.mem_finRange, true_and, decide_eq_true_eq]
  constructor
  · rintro ⟨r, h, rfl⟩; exact ⟨r, h, rfl⟩
  · rintro ⟨r, h, rfl⟩; exact ⟨r, h, rfl⟩

theorem mem_byteParts {a k b : Nat} : Part.byte b ∈ byteParts a k ↔ a ≤ b ∧ b < a + k := by
  simp only [byteParts, List.mem_map, List.mem_range, Part.byte.injEq]
  constructor
  · rintro ⟨o, h1, h2⟩; omega
  · intro h; exact ⟨b - a, by omega, by omega⟩

end Sys2Proof.Machine
end

