-- ==== Sys2Proof/Laws/Draw.lean ====
section
/-! SUPPORT. Drawing, pixel by pixel: what a sprite line puts in a column, and what `drawRows` does to every pixel and to the
collision flag (spec 44_display.md R211). -/

namespace Sys2Proof.Machine

/-- The column `x` of a sprite line: bit 7 - (x - x0) of the byte, where the line reaches. -/
theorem getMsbD_spriteLine (b : Byte) (x0 x : Nat) (hx : x < 64) :
    (spriteLine b x0).getMsbD x = (decide (x0 ≤ x ∧ x < x0 + 8) && (orientSprite b).getMsbD (x - x0)) := by
  generalize hb : orientSprite b = w
  simp only [spriteLine, hb, BitVec.getMsbD_ushiftRight, BitVec.getMsbD_shiftLeft, BitVec.getMsbD_setWidth]
  by_cases h1 : x0 ≤ x
  · by_cases h2 : x < x0 + 8
    · simp [h1, h2, hx, show ¬ x < x0 by omega, BitVec.getMsbD]
    · simp [h1, h2, BitVec.getMsbD, show ¬ x - x0 < 8 by omega]
  · simp [h1, show x < x0 by omega]

/-- The pixel a run of sprite bytes has on the screen, from row `y0` and column `x0`. -/
def spriteDot (bs : List Byte) (x0 y0 y x : Nat) : Bool :=
  decide (y0 ≤ y) && decide (x < 64) && (match bs[y - y0]? with
    | some b => decide (x0 ≤ x ∧ x < x0 + 8) && (orientSprite b).getMsbD (x - x0)
    | none => false)

theorem FrameBuffer.pixel_set (fb : FrameBuffer) (k : Nat) (hk : k < 32) (w : BitVec 64) (y x : Nat) :
    FrameBuffer.pixel (fb.set k w) y x = if y = k then w.getMsbD x else fb.pixel y x := by
  unfold FrameBuffer.pixel
  by_cases hy : y < 32
  · simp only [hy, dite_true, Vector.getElem_set]
    by_cases h : y = k
    · subst h; simp
    · simp [h, Ne.symm h]
  · simp [hy, show y ≠ k by omega]

theorem spriteDot_cons (b : Byte) (bs : List Byte) (x0 y0 y x : Nat) :
    spriteDot (b :: bs) x0 y0 y x =
      if y = y0 then decide (x < 64) && (spriteLine b x0).getMsbD x else spriteDot bs x0 (y0 + 1) y x := by
  by_cases h : y = y0
  · subst h
    by_cases hx : x < 64
    · simp [spriteDot, hx, getMsbD_spriteLine]
    · simp [spriteDot, hx]
  · by_cases h1 : y0 ≤ y
    · have h2 : y - y0 = (y - (y0 + 1)) + 1 := by omega
      simp [spriteDot, h, h1, h2, show y0 + 1 ≤ y by omega]
    · simp [spriteDot, h, h1, show ¬ y0 + 1 ≤ y by omega]

theorem spriteDot_above (bs : List Byte) (x0 y0 y x : Nat) (h : y < y0) : spriteDot bs x0 y0 y x = false := by
  simp [spriteDot, show ¬ y0 ≤ y by omega]

theorem FrameBuffer.pixel_outside (fb : FrameBuffer) (y x : Nat) (h : ¬ (y < 32 ∧ x < 64)) : fb.pixel y x = false := by
  unfold FrameBuffer.pixel
  split
  · rw [BitVec.getMsbD_of_ge]; omega
  · rfl

theorem FrameBuffer.pixel_row (fb : FrameBuffer) (k : Nat) (hk : k < 32) (x : Nat) : fb[k].getMsbD x = fb.pixel k x := by
  simp [FrameBuffer.pixel, hk]

/-- Every pixel on the screen is exclusive-ored with the sprite's dot there; rows and columns off the screen are not drawn. -/
theorem drawRows_pixel (x0 : Nat) (bs : List Byte) (y0 : Nat) (fb : FrameBuffer) (hit : Bool) (y x : Nat) :
    FrameBuffer.pixel (drawRows x0 bs y0 fb hit).1 y x =
      (fb.pixel y x ^^ (decide (y < 32) && spriteDot bs x0 y0 y x)) := by
  induction bs generalizing y0 fb hit with
  | nil => simp [drawRows, spriteDot]
  | cons b bs ih =>
    rw [spriteDot_cons]
    unfold drawRows
    split
    · rename_i h
      rw [ih, FrameBuffer.pixel_set]
      by_cases hy : y = y0
      · subst hy
        rw [spriteDot_above _ _ _ _ _ (by omega)]
        by_cases hx : x < 64
        · simp [h, hx, BitVec.getMsbD_xor, FrameBuffer.pixel_row]
        · simp [hx, FrameBuffer.pixel_outside fb y x (by omega), BitVec.getMsbD_of_ge _ _ (Nat.not_lt.mp hx)]
      · simp [hy]
    · rename_i h
      rw [ih]
      by_cases hy : y = y0
      · subst hy
        simp [h]
      · simp [hy]

theorem line_and_ne_zero (v w : BitVec 64) : ((v &&& w) != 0) = true ↔ ∃ x, x < 64 ∧ v.getMsbD x = true ∧ w.getMsbD x = true := by
  constructor
  · intro h
    by_contra hn
    push Not at hn
    apply (bne_iff_ne.mp h)
    apply BitVec.eq_of_getMsbD_eq
    intro i hi
    have := hn i hi
    simp only [BitVec.getMsbD_and]
    cases hv : v.getMsbD i
    · simp
    · simp [this hv]
  · rintro ⟨x, hx, hv, hw⟩
    rw [bne_iff_ne]
    intro h
    have h2 := congrArg (fun z => BitVec.getMsbD z x) h
    simp [hv, hw] at h2

/-- The collision flag: some pixel that was lit meets a lit dot of the sprite. -/
theorem drawRows_hit (x0 : Nat) (bs : List Byte) (y0 : Nat) (fb : FrameBuffer) (hit : Bool) :
    (drawRows x0 bs y0 fb hit).2 = true ↔
      hit = true ∨ ∃ y x, y < 32 ∧ x < 64 ∧ fb.pixel y x = true ∧ spriteDot bs x0 y0 y x = true := by
  induction bs generalizing y0 fb hit with
  | nil => simp [drawRows, spriteDot]
  | cons b bs ih =>
    unfold drawRows
    split
    · rename_i h
      rw [ih, Bool.or_eq_true, line_and_ne_zero]
      constructor
      · rintro ((h1 | ⟨x, hx, h1, h2⟩) | ⟨y, x, hy, hx, h1, h2⟩)
        · exact .inl h1
        · refine .inr ⟨y0, x, h, hx, by rw [← FrameBuffer.pixel_row fb y0 h]; exact h1, ?_⟩
          rw [spriteDot_cons]; simp [hx, h2]
        · have hy0 : y ≠ y0 := by
            rintro rfl
            rw [spriteDot_above _ _ _ _ _ (by omega)] at h2
            exact absurd h2 (by simp)
          rw [FrameBuffer.pixel_set, if_neg hy0] at h1
          exact .inr ⟨y, x, hy, hx, h1, by rw [spriteDot_cons, if_neg hy0]; exact h2⟩
      · rintro (h1 | ⟨y, x, hy, hx, h1, h2⟩)
        · exact .inl (.inl h1)
        · rw [spriteDot_cons] at h2
          by_cases hy0 : y = y0
          · subst hy0
            rw [if_pos rfl] at h2
            simp only [Bool.and_eq_true] at h2
            exact .inl (.inr ⟨x, hx, by rw [FrameBuffer.pixel_row]; exact h1, h2.2⟩)
          · rw [if_neg hy0] at h2
            exact .inr ⟨y, x, hy, hx, by rw [FrameBuffer.pixel_set, if_neg hy0]; exact h1, h2⟩
    · rename_i h
      rw [ih]
      constructor
      · rintro (h1 | ⟨y, x, hy, hx, h1, h2⟩)
        · exact .inl h1
        · exact .inr ⟨y, x, hy, hx, h1, by rw [spriteDot_cons, if_neg (by omega)]; exact h2⟩
      · rintro (h1 | ⟨y, x, hy, hx, h1, h2⟩)
        · exact .inl h1
        · rw [spriteDot_cons, if_neg (by omega)] at h2
          exact .inr ⟨y, x, hy, hx, h1, h2⟩

/-- Two frame buffers with the same pixels are the same. -/
theorem FrameBuffer.ext_pixel {fb gb : FrameBuffer} (h : ∀ y x, y < 32 → x < 64 → fb.pixel y x = gb.pixel y x) :
    fb = gb := by
  apply Vector.ext
  intro k hk
  apply BitVec.eq_of_getMsbD_eq
  intro x hx
  rw [FrameBuffer.pixel_row, FrameBuffer.pixel_row]
  exact h k x hk hx

end Sys2Proof.Machine
end

