-- ==== Sys2Proof/Laws/Exec.lean ====
section
/-! SUPPORT. Once for all instructions: `exec` of each constructor as its meaning, no refusal, and the fields no instruction
touches (they belong to the frame scheduler and the host). -/

namespace Sys2Proof.Machine

/-- The fields only the frame scheduler, reset and the host write: `LEGACY` (R29), `run_state` (R31), `slot` (R33),
`keys_held` (R36), and the host's side. -/
def SameControl (s t : State) : Prop :=
  t.legacy = s.legacy ∧ t.runState = s.runState ∧ t.slot = s.slot ∧ t.keysHeld = s.keysHeld ∧
    t.hostQueue = s.hostQueue ∧ t.hostIdle = s.hostIdle

theorem SameControl.refl (s : State) : SameControl s s := ⟨rfl, rfl, rfl, rfl, rfl, rfl⟩

/-- What a guarded effect keeps, it keeps whenever it answers a next state. -/
theorem sameControl_of_guarded {i : Instr} {c : Option Problem} {s t u : State} (h : guarded i c s t = .next u)
    (ht : SameControl s t) : SameControl s u := by
  obtain ⟨-, rfl⟩ := guarded_next_iff.mp h
  exact ht

/-- No instruction touches the control fields. -/
theorem exec_sameControl {i : Instr} {s t : State} (h : exec i s = .next t) : SameControl s t := by
  cases i
  case ret =>
    simp only [exec, execRet] at h
    split at h
    · simp [raise] at h
    · obtain rfl := Host.Outcome.next.inj h
      exact ⟨rfl, rfl, rfl, rfl, rfl, rfl⟩
  case ldSTVx x =>
    obtain rfl := Host.Outcome.next.inj h
    split <;> exact ⟨rfl, rfl, rfl, rfl, rfl, rfl⟩
  case jp | call | jpV0 | addI | ldF | ldB | ldMemVx | ldVxMem | drw | skp | sknp =>
    exact sameControl_of_guarded h (by simp [SameControl])
  all_goals
    obtain rfl := Host.Outcome.next.inj h
    first
    | exact ⟨rfl, rfl, rfl, rfl, rfl, rfl⟩
    | simp [SameControl]

/-- The delay timer is written by FX15 alone (R27). -/
theorem exec_delay {i : Instr} {s t : State} (h : exec i s = .next t) : t.dt = s.dt ∨ ∃ x, i = .ldDTVx x := by
  cases i
  case ldDTVx x => exact .inr ⟨x, rfl⟩
  case ret =>
    simp only [exec, execRet] at h
    split at h
    · simp [raise] at h
    · obtain rfl := Host.Outcome.next.inj h
      exact .inl rfl
  case ldSTVx x =>
    obtain rfl := Host.Outcome.next.inj h
    left; split <;> rfl
  case jp | call | jpV0 | addI | ldF | ldB | ldMemVx | ldVxMem | drw | skp | sknp =>
    obtain ⟨-, rfl⟩ := guarded_next_iff.mp h
    left; simp
  all_goals
    obtain rfl := Host.Outcome.next.inj h
    left
    first | rfl | simp

/-- The sound timer, the tone and the output events are written by FX18 alone, and it sends nothing but `start_tone` (R28,
R235). -/
theorem exec_sound {i : Instr} {s t : State} (h : exec i s = .next t) :
    (t.st = s.st ∧ t.tone = s.tone ∧ t.out = s.out) ∨
      ∃ x, i = .ldSTVx x ∧ (t.out = s.out ∨ t.out = .startTone :: s.out) := by
  cases i
  case ldSTVx x =>
    obtain rfl := Host.Outcome.next.inj h
    refine .inr ⟨x, rfl, ?_⟩
    split
    · exact .inl rfl
    · exact .inr rfl
  case ret =>
    simp only [exec, execRet] at h
    split at h
    · simp [raise] at h
    · obtain rfl := Host.Outcome.next.inj h
      exact .inl ⟨rfl, rfl, rfl⟩
  case jp | call | jpV0 | addI | ldF | ldB | ldMemVx | ldVxMem | drw | skp | sknp =>
    obtain ⟨-, rfl⟩ := guarded_next_iff.mp h
    left; simp
  all_goals
    obtain rfl := Host.Outcome.next.inj h
    left
    first | exact ⟨rfl, rfl, rfl⟩ | simp

/-- The key event is taken by FX0A alone, and it leaves none (R36). -/
theorem exec_keyEvent {i : Instr} {s t : State} (h : exec i s = .next t) :
    t.keyEvent = s.keyEvent ∨ (t.keyEvent = none ∧ ∃ x, i = .ldVxK x) := by
  cases i
  case ldVxK x =>
    obtain rfl := Host.Outcome.next.inj h
    cases hk : s.keyEvent <;> simp [State.takeKey, hk]
  case ret =>
    simp only [exec, execRet] at h
    split at h
    · simp [raise] at h
    · obtain rfl := Host.Outcome.next.inj h
      exact .inl rfl
  case ldSTVx x =>
    obtain rfl := Host.Outcome.next.inj h
    left; split <;> rfl
  case jp | call | jpV0 | addI | ldF | ldB | ldMemVx | ldVxMem | drw | skp | sknp =>
    obtain ⟨-, rfl⟩ := guarded_next_iff.mp h
    left; simp
  all_goals
    obtain rfl := Host.Outcome.next.inj h
    left
    first | rfl | simp

/-- Slot completion on a next state. -/
theorem finishSlot_next_iff {r : Result} {u : State} : finishSlot r = .next u ↔ ∃ t, r = .next t ∧ endSlot t = u := by
  cases r <;> simp [finishSlot]

/-- A running machine's instruction, when it completes: it was fetched inside memory and decoded. -/
theorem runInstr_next_cases {s t : State} (h : runInstr s = .next t) :
    s.pc.toNat ≤ 4094 ∧ ∃ i, decode s.fetchWord = .ok i ∧ exec i (s.setPc (s.pc + 2)) = .next t := by
  unfold runInstr at h
  split at h
  · simp at h
  · rename_i hf
    refine ⟨fetchCheck_none_iff.mp hf, ?_⟩
    unfold execWord at h
    split at h
    · simp at h
    · rename_i i hi
      exact ⟨i, hi, h⟩

/-- One step that completes, taken apart: the machine was stopped and stays as it is, or it ran one slot. -/
theorem step_next_cases {s u : State} (h : step s = .next u) :
    (s.runState = .stopped ∧ u = s) ∨
      (s.runState = .running ∧ ∃ t, runInstr (beginSlot s) = .next t ∧ endSlot t = u) := by
  unfold step at h
  split at h
  · exact .inr ⟨by assumption, finishSlot_next_iff.mp h⟩
  · simp at h
  · exact .inl ⟨by assumption, (Host.Outcome.next.inj h).symm⟩

end Sys2Proof.Machine
end

