-- ==== Sys2Proof/Laws/Frame.lean ====
section
/-! SUPPORT. What the frame phases leave alone: everything an instruction works on but the timers, the tone, the dirty bit
and the output events. -/

namespace Sys2Proof.Machine

/-- The program's own state: what no frame phase touches. -/
def SameProgram (s t : State) : Prop :=
  t.regs = s.regs ∧ t.i = s.i ∧ t.pc = s.pc ∧ t.stack = s.stack ∧ t.mem = s.mem ∧ t.fb = s.fb ∧ t.legacy = s.legacy ∧
    t.hostIdle = s.hostIdle ∧ t.randQueue = s.randQueue ∧ t.randDrawn = s.randDrawn

theorem SameProgram.trans {s t u : State} (h : SameProgram s t) (k : SameProgram t u) : SameProgram s u := by
  obtain ⟨a1, a2, a3, a4, a5, a6, a7, a8, a9, a10⟩ := h
  obtain ⟨b1, b2, b3, b4, b5, b6, b7, b8, b9, b10⟩ := k
  exact ⟨b1.trans a1, b2.trans a2, b3.trans a3, b4.trans a4, b5.trans a5, b6.trans a6, b7.trans a7, b8.trans a8,
    b9.trans a9, b10.trans a10⟩

theorem beginSlot_sameProgram (s : State) : SameProgram s (beginSlot s) := by
  unfold beginSlot; split <;> simp [SameProgram, phaseInput]

/-- Phase 1 writes the input latches and the slot count, and no other field. -/
theorem beginSlot_control (s : State) : (beginSlot s).dt = s.dt ∧ (beginSlot s).st = s.st ∧ (beginSlot s).dirty = s.dirty ∧
    (beginSlot s).runState = s.runState ∧ (beginSlot s).tone = s.tone ∧ (beginSlot s).hostQueue = s.hostQueue ∧
    (beginSlot s).out = s.out := by
  unfold beginSlot; split <;> simp [phaseInput]

theorem phaseTimers_sameProgram (s : State) : SameProgram s (phaseTimers s) := by
  unfold phaseTimers tickSound tickDelay
  split <;> split <;> (try split) <;> simp [SameProgram]

theorem phaseDisplay_sameProgram (s : State) : SameProgram s (phaseDisplay s) := by
  unfold phaseDisplay; split <;> simp [SameProgram]

theorem phaseStop_sameProgram (s : State) : SameProgram s (phaseStop s) := by
  simp [SameProgram, phaseStop]

theorem endFrame_sameProgram (s : State) : SameProgram s (endFrame s) :=
  ((phaseTimers_sameProgram s).trans (phaseDisplay_sameProgram _)).trans (phaseStop_sameProgram _)

theorem endSlot_sameProgram (s : State) : SameProgram s (endSlot s) := by
  unfold endSlot; split
  · exact SameProgram.trans (by simp [SameProgram, countSlot]) (endFrame_sameProgram (countSlot s))
  · simp [SameProgram, countSlot]

/-! ## The scheduler's own fields at the end of a frame -/

theorem phaseTimers_control (s : State) : (phaseTimers s).slot = s.slot ∧ (phaseTimers s).runState = s.runState ∧
    (phaseTimers s).hostQueue = s.hostQueue ∧ (phaseTimers s).hostIdle = s.hostIdle ∧
    (phaseTimers s).dirty = s.dirty ∧ (phaseTimers s).keysHeld = s.keysHeld ∧
    (phaseTimers s).keyEvent = s.keyEvent := by
  unfold phaseTimers tickSound tickDelay
  split <;> split <;> (try split) <;> simp

theorem phaseDisplay_control (s : State) : (phaseDisplay s).slot = s.slot ∧ (phaseDisplay s).runState = s.runState ∧
    (phaseDisplay s).hostQueue = s.hostQueue ∧ (phaseDisplay s).hostIdle = s.hostIdle ∧
    (phaseDisplay s).dirty = false ∧ (phaseDisplay s).keysHeld = s.keysHeld ∧
    (phaseDisplay s).keyEvent = s.keyEvent := by
  unfold phaseDisplay; split <;> simp_all

/-- What a completed frame leaves in the scheduler's fields. -/
theorem endFrame_control (s : State) : (endFrame s).slot = s.slot ∧
    (endFrame s).runState = (if s.hostNow.stopReq then .stopped else s.runState) ∧
    (endFrame s).hostQueue = s.hostQueue.tail ∧ (endFrame s).dirty = false ∧ (endFrame s).keysHeld = s.keysHeld ∧
    (endFrame s).keyEvent = s.keyEvent := by
  obtain ⟨a1, a2, a3, a4, -, a6, a7⟩ := phaseTimers_control s
  obtain ⟨b1, b2, b3, b4, b5, b6, b7⟩ := phaseDisplay_control (phaseTimers s)
  have hn : (phaseDisplay (phaseTimers s)).hostNow = s.hostNow := by
    simp only [State.hostNow, b3, b4, a3, a4]
  refine ⟨b1.trans a1, ?_, ?_, b5, b6.trans a6, b7.trans a7⟩
  · simp only [endFrame, phaseStop, hn, b2.trans a2]
  · simp only [endFrame, phaseStop, b3.trans a3]

end Sys2Proof.Machine
end

