-- ==== Sys2Proof/Laws/PerInstr.lean ====
section
/-! SUPPORT. Families of lemmas, one lemma per instruction (LAWS.json). `FitsRow`: the word of an instruction matches the
instruction's own row of spec 30_encoding.md R95, at every value of every operand. -/

namespace Sys2Proof.Laws.FitsRow

/-- The word of the instruction matches its row: `op & mask = match`. -/
def Statement (i : Instr) : Prop := i.row.fits (encode i) = true

theorem cls : Statement .cls := rfl

theorem ret : Statement .ret := rfl

theorem jp (nnn : BitVec 12) : Statement (.jp nnn) := by
  simp only [Statement, OpcodeRow.fits, Instr.row, encode, and_wordNNN]
  decide

theorem call (nnn : BitVec 12) : Statement (.call nnn) := by
  simp only [Statement, OpcodeRow.fits, Instr.row, encode, and_wordNNN]
  decide

theorem seImm (x : Reg) (nn : Byte) : Statement (.seImm x nn) := by
  simp only [Statement, OpcodeRow.fits, Instr.row, encode, and_wordXNN]
  decide

theorem sneImm (x : Reg) (nn : Byte) : Statement (.sneImm x nn) := by
  simp only [Statement, OpcodeRow.fits, Instr.row, encode, and_wordXNN]
  decide

theorem seReg (x : Reg) (y : Reg) : Statement (.seReg x y) := by
  simp only [Statement, OpcodeRow.fits, Instr.row, encode, and_wordXY]
  decide

theorem ldImm (x : Reg) (nn : Byte) : Statement (.ldImm x nn) := by
  simp only [Statement, OpcodeRow.fits, Instr.row, encode, and_wordXNN]
  decide

theorem addImm (x : Reg) (nn : Byte) : Statement (.addImm x nn) := by
  simp only [Statement, OpcodeRow.fits, Instr.row, encode, and_wordXNN]
  decide

theorem ldReg (x : Reg) (y : Reg) : Statement (.ldReg x y) := by
  simp only [Statement, OpcodeRow.fits, Instr.row, encode, and_wordXY]
  decide

theorem orReg (x : Reg) (y : Reg) : Statement (.orReg x y) := by
  simp only [Statement, OpcodeRow.fits, Instr.row, encode, and_wordXY]
  decide

theorem andReg (x : Reg) (y : Reg) : Statement (.andReg x y) := by
  simp only [Statement, OpcodeRow.fits, Instr.row, encode, and_wordXY]
  decide

theorem xorReg (x : Reg) (y : Reg) : Statement (.xorReg x y) := by
  simp only [Statement, OpcodeRow.fits, Instr.row, encode, and_wordXY]
  decide

theorem addReg (x : Reg) (y : Reg) : Statement (.addReg x y) := by
  simp only [Statement, OpcodeRow.fits, Instr.row, encode, and_wordXY]
  decide

theorem subReg (x : Reg) (y : Reg) : Statement (.subReg x y) := by
  simp only [Statement, OpcodeRow.fits, Instr.row, encode, and_wordXY]
  decide

theorem shr (x : Reg) (y : Reg) : Statement (.shr x y) := by
  simp only [Statement, OpcodeRow.fits, Instr.row, encode, and_wordXY]
  decide

theorem subn (x : Reg) (y : Reg) : Statement (.subn x y) := by
  simp only [Statement, OpcodeRow.fits, Instr.row, encode, and_wordXY]
  decide

theorem shl (x : Reg) (y : Reg) : Statement (.shl x y) := by
  simp only [Statement, OpcodeRow.fits, Instr.row, encode, and_wordXY]
  decide

theorem sneReg (x : Reg) (y : Reg) : Statement (.sneReg x y) := by
  simp only [Statement, OpcodeRow.fits, Instr.row, encode, and_wordXY]
  decide

theorem ldI (nnn : BitVec 12) : Statement (.ldI nnn) := by
  simp only [Statement, OpcodeRow.fits, Instr.row, encode, and_wordNNN]
  decide

theorem jpV0 (nnn : BitVec 12) : Statement (.jpV0 nnn) := by
  simp only [Statement, OpcodeRow.fits, Instr.row, encode, and_wordNNN]
  decide

theorem rnd (x : Reg) (nn : Byte) : Statement (.rnd x nn) := by
  simp only [Statement, OpcodeRow.fits, Instr.row, encode, and_wordXNN]
  decide

theorem drw (x : Reg) (y : Reg) (n : BitVec 4) : Statement (.drw x y n) := by
  simp only [Statement, OpcodeRow.fits, Instr.row, encode, and_wordXYN]
  decide

theorem skp (x : Reg) : Statement (.skp x) := by
  simp only [Statement, OpcodeRow.fits, Instr.row, encode, and_wordX]
  decide

theorem sknp (x : Reg) : Statement (.sknp x) := by
  simp only [Statement, OpcodeRow.fits, Instr.row, encode, and_wordX]
  decide

theorem ldVxDT (x : Reg) : Statement (.ldVxDT x) := by
  simp only [Statement, OpcodeRow.fits, Instr.row, encode, and_wordX]
  decide

theorem ldVxK (x : Reg) : Statement (.ldVxK x) := by
  simp only [Statement, OpcodeRow.fits, Instr.row, encode, and_wordX]
  decide

theorem ldDTVx (x : Reg) : Statement (.ldDTVx x) := by
  simp only [Statement, OpcodeRow.fits, Instr.row, encode, and_wordX]
  decide

theorem ldSTVx (x : Reg) : Statement (.ldSTVx x) := by
  simp only [Statement, OpcodeRow.fits, Instr.row, encode, and_wordX]
  decide

theorem addI (x : Reg) : Statement (.addI x) := by
  simp only [Statement, OpcodeRow.fits, Instr.row, encode, and_wordX]
  decide

theorem ldF (x : Reg) : Statement (.ldF x) := by
  simp only [Statement, OpcodeRow.fits, Instr.row, encode, and_wordX]
  decide

theorem ldB (x : Reg) : Statement (.ldB x) := by
  simp only [Statement, OpcodeRow.fits, Instr.row, encode, and_wordX]
  decide

theorem ldMemVx (x : Reg) : Statement (.ldMemVx x) := by
  simp only [Statement, OpcodeRow.fits, Instr.row, encode, and_wordX]
  decide

theorem ldVxMem (x : Reg) : Statement (.ldVxMem x) := by
  simp only [Statement, OpcodeRow.fits, Instr.row, encode, and_wordX]
  decide

end Sys2Proof.Laws.FitsRow
end

