-- ==== Sys2Proof/Tests/Slice0.lean ====
section
/-! SUPPORT. Tests: decoding of words written out from the table of spec 30_encoding.md R95, the worked examples and vectors
of spec 95_test_vectors.md (E1 to E10, T1 to T215; each test names its own), and a witness for the hypotheses of every
statement. Expected values are the spec's, none is the model's answer. -/

namespace Sys2Proof.Machine.Tests

/-! ## Helpers -/

/-- One step from a state with an instruction word placed at its `pc`. -/
def after (op : Nat) (s : State) : Option State :=
  match step (s.withFetchWord 16 op) with
  | .next t => some t
  | .fault _ => none
  | .refused _ => none

/-- The record of the fault of that step. -/
def faultAfter (op : Nat) (s : State) : Option FaultRecord :=
  match step (s.withFetchWord 16 op) with
  | .next _ => none
  | .fault (.raised r) => some r
  | .refused _ => none

/-- The reset state with two registers set. -/
def withRegs (x : Reg) (a : Byte) (y : Reg) (b : Byte) : State := (State.reset.setReg x a).setReg y b

/-- The same state in legacy mode (R29). -/
def inLegacy (s : State) : State := { s with legacy := true }

/-- The same state with bytes of memory from an address up. -/
def withBytes (s : State) (a : Nat) (bs : List Byte) : State := s.storeRun a bs

/-- How many pixels are lit. -/
def litCount (s : State) : Nat := (s.fb.toList.map fun w => (List.range 64).countP fun k => w.getLsbD k).sum

/-! ## Well-formedness: the check refuses every ill-formed word (R97), one family after the other -/

theorem test_illegal_family0 : legalOpcode 0x0000 = false ∧ legalOpcode 0x00E1 = false ∧ legalOpcode 0x0123 = false := by decide

theorem test_illegal_family5 : legalOpcode 0x5121 = false := by decide

theorem test_illegal_family8 : legalOpcode 0x8128 = false ∧ legalOpcode 0x812F = false := by decide

theorem test_illegal_family9 : legalOpcode 0x9AB1 = false := by decide

theorem test_illegal_familyE : legalOpcode 0xE19F = false ∧ legalOpcode 0xE1A0 = false := by decide

theorem test_illegal_familyF : legalOpcode 0xF100 = false ∧ legalOpcode 0xF1FF = false ∧ legalOpcode 0xF002 = false ∧
    legalOpcode 0xF075 = false := by decide

theorem test_illegal_words_do_not_decode : decode 0x0000 = .error (.illegal 0x0000) ∧
    decode 0x5121 = .error (.illegal 0x5121) ∧ decode 0x9AB1 = .error (.illegal 0x9AB1) ∧
    decode 0xE19F = .error (.illegal 0xE19F) ∧ decode 0xF075 = .error (.illegal 0xF075) := by decide

theorem test_truncated : decodeBytes [0x12] = .error .truncated := by decide

/-! ## Decoding: each row's word, written bit by bit from R91, R92 and R95 -/

theorem test_decode_cls : decode 0b0000_0000_1110_0000 = .ok .cls := by decide
theorem test_decode_ret : decode 0b0000_0000_1110_1110 = .ok .ret := by decide
theorem test_decode_jp : decode 0b0001_0010_0011_0100 = .ok (.jp 0x234) := by decide
theorem test_decode_call : decode 0b0010_1010_1011_1100 = .ok (.call 0xABC) := by decide
theorem test_decode_seImm : decode 0b0011_0101_1110_0001 = .ok (.seImm 5 0xE1) := by decide
theorem test_decode_sneImm : decode 0b0100_1010_0000_0101 = .ok (.sneImm 10 5) := by decide
theorem test_decode_seReg : decode 0b0101_0001_1110_0000 = .ok (.seReg 1 14) := by decide
theorem test_decode_ldImm : decode 0b0110_0000_0000_1010 = .ok (.ldImm 0 10) := by decide
theorem test_decode_addImm : decode 0b0111_1111_1000_0001 = .ok (.addImm 15 0x81) := by decide
theorem test_decode_ldReg : decode 0b1000_1110_1111_0000 = .ok (.ldReg 14 15) := by decide
theorem test_decode_orReg : decode 0b1000_0001_0010_0001 = .ok (.orReg 1 2) := by decide
theorem test_decode_andReg : decode 0b1000_0011_0100_0010 = .ok (.andReg 3 4) := by decide
theorem test_decode_xorReg : decode 0b1000_0101_0110_0011 = .ok (.xorReg 5 6) := by decide
theorem test_decode_addReg : decode 0b1000_0111_1000_0100 = .ok (.addReg 7 8) := by decide
theorem test_decode_subReg : decode 0b1000_1001_1010_0101 = .ok (.subReg 9 10) := by decide
theorem test_decode_shr : decode 0b1000_0001_0010_0110 = .ok (.shr 1 2) := by decide
theorem test_decode_subn : decode 0b1000_1011_1100_0111 = .ok (.subn 11 12) := by decide
theorem test_decode_shl : decode 0b1000_1101_1110_1110 = .ok (.shl 13 14) := by decide
theorem test_decode_sneReg : decode 0b1001_0001_0010_0000 = .ok (.sneReg 1 2) := by decide
theorem test_decode_ldI : decode 0b1010_0011_0000_0001 = .ok (.ldI 0x301) := by decide
theorem test_decode_jpV0 : decode 0b1011_1111_0000_0001 = .ok (.jpV0 0xF01) := by decide
theorem test_decode_rnd : decode 0b1100_0011_0000_1111 = .ok (.rnd 3 0x0F) := by decide
theorem test_decode_drw : decode 0b1101_0001_0010_0101 = .ok (.drw 1 2 5) := by decide
theorem test_decode_skp : decode 0b1110_0101_1001_1110 = .ok (.skp 5) := by decide
theorem test_decode_sknp : decode 0b1110_0110_1010_0001 = .ok (.sknp 6) := by decide
theorem test_decode_ldVxDT : decode 0b1111_0001_0000_0111 = .ok (.ldVxDT 1) := by decide
theorem test_decode_ldVxK : decode 0b1111_0011_0000_1010 = .ok (.ldVxK 3) := by decide
theorem test_decode_ldDTVx : decode 0b1111_1000_0001_0101 = .ok (.ldDTVx 8) := by decide
theorem test_decode_ldSTVx : decode 0b1111_0010_0001_1000 = .ok (.ldSTVx 2) := by decide
theorem test_decode_addI : decode 0b1111_0001_0001_1110 = .ok (.addI 1) := by decide
theorem test_decode_ldF : decode 0b1111_1001_0010_1001 = .ok (.ldF 9) := by decide
theorem test_decode_ldB : decode 0b1111_0100_0011_0011 = .ok (.ldB 4) := by decide
theorem test_decode_ldMemVx : decode 0b1111_0010_0101_0101 = .ok (.ldMemVx 2) := by decide
theorem test_decode_ldVxMem : decode 0b1111_0111_0110_0101 = .ok (.ldVxMem 7) := by decide

/-- E8's bytes: 0x60 at the lower address is the high byte (R67). -/
theorem test_decode_bytes : decodeBytes [0x60, 0x0A, 0x77] = .ok (.ldImm 0 10, [0x77]) := by decide

/-! ## Fetch and illegal words -/

/-- E8. -/
theorem test_first_step : (after 0x600A State.reset).map (fun t => (t.reg 0, t.pc, t.slot)) = some (10, 514, 1) := by decide

/-- T13: the empty image. -/
theorem test_empty_image : (tick State.reset).faultRecord? = some ⟨.unknownOpcode, 0x200, some 0, 0⟩ := by decide

/-- T9. -/
theorem test_illegal_word : faultAfter 0xF075 State.reset = some ⟨.unknownOpcode, 0x200, some 0xF075, 0xF075⟩ := by decide

/-- T10. -/
theorem test_last_word : (after 0x6001 (State.reset.setPc 4094)).map (fun t => (t.reg 0, t.pc)) = some (1, 4096) := by decide

/-- T11, T45. -/
theorem test_fetch_bound :
    (tick (State.reset.setPc 4095)).faultRecord? = some ⟨.addressOutOfBounds, 4095, none, 4095⟩ ∧
    (tick (State.reset.setPc 4098)).faultRecord? = some ⟨.addressOutOfBounds, 4098, none, 4098⟩ := by decide

/-! ## Control transfer -/

/-- E9, T30. -/
theorem test_ret : (after 0x00EE { State.reset with stack := [600] }).map (fun t => (t.pc, t.sp)) = some (600, 0) ∧
    (after 0x00EE { State.reset with stack := [4096, 0x206] }).map (fun t => (t.pc, t.stack)) = some (4096, [0x206]) := by
  decide

/-- T29. -/
theorem test_ret_underflow : faultAfter 0x00EE State.reset = some ⟨.stackUnderflow, 0x200, some 0x00EE, 0⟩ := by decide

/-- T22, T23. -/
theorem test_jp : (after 0x1FFF State.reset).map (·.pc) = some 0xFFF ∧ (after 0x1201 State.reset).map (·.pc) = some 0x201 := by
  decide

/-- T21. -/
theorem test_jp_reserved : faultAfter 0x11FF State.reset = some ⟨.reservedTarget, 0x200, some 0x11FF, 511⟩ := by decide

/-- T24, T28. -/
theorem test_call : (after 0x2300 (State.reset.setPc 0x204)).map (fun t => (t.stack, t.pc)) = some ([0x206], 0x300) ∧
    (after 0x2300 (State.reset.setPc 4094)).map (fun t => (t.stack, t.pc)) = some ([4096], 0x300) := by decide

/-- T26, T27. -/
theorem test_call_overflow :
    faultAfter 0x2300 { State.reset with stack := List.replicate 12 0x206 } =
      some ⟨.stackOverflow, 0x200, some 0x2300, 0x300⟩ ∧
    faultAfter 0x2100 { State.reset with stack := List.replicate 12 0x206 } =
      some ⟨.reservedTarget, 0x200, some 0x2100, 0x100⟩ := by decide

/-- T37, T38. -/
theorem test_seImm : (after 0x3100 (State.reset.setPc 0x208)).map (·.pc) = some 0x20C ∧
    (after 0x3100 ((State.reset.setReg 1 4).setPc 0x208)).map (·.pc) = some 0x20A := by decide

/-- T39. -/
theorem test_sneImm : (after 0x4A05 ((State.reset.setReg 10 5).setPc 0x208)).map (·.pc) = some 0x20A ∧
    (after 0x4A05 ((State.reset.setReg 10 6).setPc 0x208)).map (·.pc) = some 0x20C := by decide

/-- T40. -/
theorem test_seReg : (after 0x5120 ((withRegs 1 7 2 7).setPc 0x208)).map (·.pc) = some 0x20C ∧
    (after 0x5120 ((withRegs 1 7 2 8).setPc 0x208)).map (·.pc) = some 0x20A := by decide

/-- T42. -/
theorem test_sneReg : (after 0x9120 ((withRegs 1 7 2 8).setPc 0x208)).map (·.pc) = some 0x20C ∧
    (after 0x9120 ((withRegs 1 7 2 7).setPc 0x208)).map (·.pc) = some 0x20A := by decide

/-- T35, T36: the register is `V0`. -/
theorem test_jpV0 : (after 0xB1FF (State.reset.setReg 0 1)).map (·.pc) = some 0x200 ∧
    (after 0xB301 (withRegs 0 2 3 0x40)).map (·.pc) = some 0x303 := by decide

/-- T33, T34: no wrap to 12 bits. -/
theorem test_jpV0_checks :
    faultAfter 0xBF01 (State.reset.setReg 0 0xFF) = some ⟨.addressOutOfBounds, 0x200, some 0xBF01, 4096⟩ ∧
    faultAfter 0xB000 (State.reset.setReg 0 0xFF) = some ⟨.reservedTarget, 0x200, some 0xB000, 255⟩ := by decide

/-! ## Load, arithmetic, logic, shift, random -/

/-- T60, T61. -/
theorem test_ldImm : (after 0x6A7F State.reset).map (·.reg 10) = some 0x7F ∧ (after 0x6F01 State.reset).map (·.reg 15) = some 1 := by
  decide

/-- E1. -/
theorem test_addImm : (after 0x7101 (State.reset.setReg 1 0xFF)).map (fun t => (t.reg 1, t.reg 15)) = some (0, 0) ∧
    (after 0x7F01 (State.reset.setReg 15 0xFF)).map (·.reg 15) = some 0 := by decide

/-- T64, T65. -/
theorem test_ldReg : (after 0x8EF0 (State.reset.setReg 15 1)).map (fun t => (t.reg 14, t.reg 15)) = some (1, 1) ∧
    (after 0x8120 (withRegs 1 1 2 0xAB)).map (·.reg 1) = some 0xAB := by decide

/-- T67, T68. -/
theorem test_orReg : (after 0x81F1 (withRegs 1 0x10 15 1)).map (fun t => (t.reg 1, t.reg 15)) = some (0x11, 0) ∧
    (after 0x8F11 (withRegs 15 0x80 1 1)).map (·.reg 15) = some 0 := by decide

/-- T69, T70. -/
theorem test_andReg : (after 0x8122 ((withRegs 1 0x3C 2 0x0F).setReg 15 1)).map (fun t => (t.reg 1, t.reg 15)) = some (0x0C, 0) ∧
    (after 0x81F2 (withRegs 1 0xFF 15 3)).map (fun t => (t.reg 1, t.reg 15)) = some (3, 0) := by decide

/-- T71, T72. -/
theorem test_xorReg : (after 0x8123 ((withRegs 1 0xFF 2 0x0F).setReg 15 1)).map (fun t => (t.reg 1, t.reg 15)) = some (0xF0, 0) ∧
    (after 0x8113 (withRegs 1 0x5A 15 1)).map (fun t => (t.reg 1, t.reg 15)) = some (0, 0) := by decide

/-- E2, T74. -/
theorem test_addReg : (after 0x8124 (withRegs 1 0xFF 2 1)).map (fun t => (t.reg 1, t.reg 15)) = some (0, 1) ∧
    (after 0x8124 (withRegs 1 0x80 2 0x7F)).map (fun t => (t.reg 1, t.reg 15)) = some (0xFF, 0) := by decide

/-- T76, T77: the flag wins. -/
theorem test_addReg_flag : (after 0x8F14 (withRegs 15 0xFF 1 2)).map (·.reg 15) = some 1 ∧
    (after 0x8F14 (withRegs 15 1 1 2)).map (·.reg 15) = some 0 := by decide

/-- E3, T80. -/
theorem test_subReg : (after 0x8125 (withRegs 1 3 2 5)).map (fun t => (t.reg 1, t.reg 15)) = some (0xFE, 0) ∧
    (after 0x8125 (withRegs 1 7 2 7)).map (fun t => (t.reg 1, t.reg 15)) = some (0, 1) := by decide

/-- E6, T93: both modes. -/
theorem test_shr : (after 0x8126 (inLegacy (withRegs 1 7 2 4))).map (fun t => (t.reg 1, t.reg 15, t.reg 2)) = some (2, 0, 4) ∧
    (after 0x8126 (withRegs 1 7 2 4)).map (fun t => (t.reg 1, t.reg 15, t.reg 2)) = some (3, 1, 4) ∧
    (after 0x8F26 (withRegs 15 2 2 5)).map (·.reg 15) = some 0 := by decide

/-- T84, T85. -/
theorem test_subn : (after 0x8127 (withRegs 1 3 2 5)).map (fun t => (t.reg 1, t.reg 15)) = some (2, 1) ∧
    (after 0x8127 (withRegs 1 5 2 3)).map (fun t => (t.reg 1, t.reg 15)) = some (0xFE, 0) := by decide

/-- T95, T99: both modes. -/
theorem test_shl : (after 0x812E (withRegs 1 0x81 2 0x40)).map (fun t => (t.reg 1, t.reg 15)) = some (2, 1) ∧
    (after 0x812E (inLegacy (withRegs 1 0x81 2 0x40))).map (fun t => (t.reg 1, t.reg 15)) = some (0x80, 0) ∧
    (after 0x81FE (inLegacy (withRegs 1 1 15 0xC0))).map (fun t => (t.reg 1, t.reg 15)) = some (0x80, 1) := by decide

/-- T100: one byte is taken. -/
theorem test_rnd : (after 0xC30F { State.reset with randQueue := [0xA7, 0x11] }).map (fun t => (t.reg 3, t.randQueue)) =
    some (7, [0x11]) := by decide

/-- T101: with NN = 0 the result is 0 whatever byte the source answers, and one byte is taken. -/
theorem test_rnd_zero (s : State) : exec (.rnd 3 0) s = .next (s.takeByte.setReg 3 0) := by simp [exec, execRnd]

/-! ## Index register and memory -/

/-- T110. -/
theorem test_ldI : (after 0xAFFF State.reset).map (·.i) = some 0xFFF ∧ (after 0xA000 State.reset).map (·.i) = some 0 := by decide

/-- T112, T115. -/
theorem test_addI : (after 0xF11E ((State.reset.setReg 1 2).setI 0xFFF)).map (fun t => (t.i, t.reg 15)) = some (0x1001, 0) ∧
    (after 0xFF1E ((State.reset.setReg 15 0x20).setI 0x100)).map (fun t => (t.i, t.reg 15)) = some (0x120, 0x20) := by decide

/-- T114. -/
theorem test_addI_overflow : faultAfter 0xF11E ((State.reset.setReg 1 0xFF).setI 0xFF01) =
    some ⟨.indexOverflow, 0x200, some 0xF11E, 65536⟩ := by decide

/-- T116. -/
theorem test_ldF : (after 0xF029 (State.reset.setReg 0 0xA)).map (·.i) = some 50 ∧
    (after 0xF029 (State.reset.setReg 0 0xF)).map (·.i) = some 75 := by decide

/-- T117. -/
theorem test_ldF_range : faultAfter 0xF029 (State.reset.setReg 0 0x10) = some ⟨.glyphIndexRange, 0x200, some 0xF029, 16⟩ := by
  decide

/-- T118, T123. -/
theorem test_ldB : (after 0xF033 ((State.reset.setReg 0 254).setI 0x300)).map (fun t => (t.mem.bytes 0x300 4, t.i)) =
      some ([2, 5, 4, 0], 0x300) ∧
    (after 0xF033 ((State.reset.setReg 0 129).setI 80)).map (·.mem.bytes 79 4) = some [0x80, 1, 2, 9] := by decide

/-- T120, T122. -/
theorem test_ldB_checks :
    faultAfter 0xF033 (State.reset.setI 4094) = some ⟨.addressOutOfBounds, 0x200, some 0xF033, 4096⟩ ∧
    faultAfter 0xF033 (State.reset.setI 79) = some ⟨.fontWrite, 0x200, some 0xF033, 79⟩ := by decide

/-- T124: both modes. -/
theorem test_ldMemVx :
    (after 0xF255 (((withRegs 0 1 1 2).setReg 2 3).setI 0x400)).map (fun t => (t.mem.bytes 0x400 4, t.i)) =
      some ([1, 2, 3, 0], 0x400) ∧
    (after 0xF255 (inLegacy (((withRegs 0 1 1 2).setReg 2 3).setI 0x400))).map (·.i) = some 0x403 := by decide

/-- T127, T131: the instruction's own first byte is overwritten after its fetch. -/
theorem test_ldMemVx_edges :
    faultAfter 0xFF55 (State.reset.setI 4081) = some ⟨.addressOutOfBounds, 0x200, some 0xFF55, 4096⟩ ∧
    (after 0xF155 ((withRegs 0 0xAB 1 0xCD).setI 0x1FF)).map (·.mem.bytes 0x1FF 2) = some [0xAB, 0xCD] := by decide

/-- T132, T133: both modes, and the font. -/
theorem test_ldVxMem :
    (after 0xF265 (withBytes ((State.reset.setReg 3 0x77).setI 0x300) 0x300 [2, 5, 4, 9])).map
      (fun t => (t.reg 0, t.reg 1, t.reg 2, t.reg 3, t.i)) = some (2, 5, 4, 0x77, 0x300) ∧
    (after 0xF465 (inLegacy State.reset)).map (fun t => (t.reg 0, t.reg 1, t.reg 4, t.reg 5, t.i)) =
      some (0xF0, 0x90, 0xF0, 0, 5) := by decide

/-- T136. -/
theorem test_ldVxMem_bound : faultAfter 0xF165 (State.reset.setI 4095) =
    some ⟨.addressOutOfBounds, 0x200, some 0xF165, 4096⟩ := by decide

/-! ## Display -/

/-- E4. -/
theorem test_cls : (after 0x00E0 { State.reset.setReg 15 1 with fb := (State.reset.fb.set 0 0x8000000000000000).set 31 1 }).map
    (fun t => (litCount t, t.dirty, t.reg 15)) = some (0, true, 1) := by decide

/-- T150: bit 7 of the sprite byte is the left pixel. -/
theorem test_drw : (after 0xD011 (withBytes (State.reset.setI 0x300) 0x300 [0xA5])).map
    (fun t => ([0, 2, 5, 7].all (t.fb.pixel 0), litCount t, t.reg 15, t.dirty)) = some (true, 4, 0, true) := by decide

/-- T155, T153: a pixel past the right edge is clipped, not wrapped; a lit pixel turned off is a collision. -/
theorem test_drw_edges :
    (after 0xD011 (withBytes ({ State.reset.setReg 0 57 with fb := State.reset.fb.set 0 0x8000000000000000 }.setI 0x300)
      0x300 [1])).map (fun t => (t.fb.pixel 0 0, litCount t, t.reg 15)) = some (true, 1, 0) ∧
    (after 0xD011 (withBytes ({ withRegs 0 1 1 1 with fb := State.reset.fb.set 1 0x4000000000000000 }.setI 0x300)
      0x300 [0xC0])).map (fun t => (t.fb.pixel 1 1, t.fb.pixel 1 2, litCount t, t.reg 15)) = some (false, true, 1, 1) := by
  decide

/-! ## Keypad and timers -/

/-- T170, T171. -/
theorem test_skp : (after 0xE59E { State.reset.setReg 5 0xA with hostIdle := ⟨0x0400, none, false⟩ }).map (·.pc) = some 0x204 ∧
    (after 0xE59E { State.reset.setReg 5 0xA with hostIdle := ⟨0xFBFF, none, false⟩ }).map (·.pc) = some 0x202 := by decide

/-- T174. -/
theorem test_skp_range : faultAfter 0xE59E { State.reset.setReg 5 0x10 with hostIdle := ⟨0xFFFF, none, false⟩ } =
    some ⟨.keyCodeRange, 0x200, some 0xE59E, 16⟩ := by decide

/-- T172, T173. -/
theorem test_sknp : (after 0xE5A1 { State.reset.setReg 5 0xA with hostIdle := ⟨0x0400, none, false⟩ }).map (·.pc) = some 0x202 ∧
    (after 0xE5A1 (State.reset.setReg 5 0xA)).map (·.pc) = some 0x204 := by decide

/-- T177, T178. -/
theorem test_ldVxK : (after 0xF30A { State.reset with hostIdle := ⟨0, some 7, false⟩ }).map (fun t => (t.reg 3, t.pc, t.keyEvent)) =
      some (7, 0x202, none) ∧
    (after 0xF30A { State.reset.setReg 3 9 with hostIdle := ⟨0, some 0, false⟩ }).map (fun t => (t.reg 3, t.pc)) =
      some (0, 0x202) := by decide

/-- T176, T179: held keys do not satisfy FX0A. -/
theorem test_ldVxK_waits : (after 0xF30A { State.reset.setReg 3 9 with hostIdle := ⟨0xFFFF, none, false⟩ }).map
    (fun t => (t.reg 3, t.pc, t.slot)) = some (9, 0x200, 1) := by decide

/-- T180. -/
theorem test_ldVxDT : (after 0xF107 { State.reset with dt := 3 }).map (fun t => (t.reg 1, t.dt)) = some (3, 3) := by decide

/-- T181. -/
theorem test_ldDTVx : (after 0xF015 (State.reset.setReg 0 5)).map (·.dt) = some 5 := by decide

/-- T182, T183. -/
theorem test_ldSTVx : (after 0xF218 (State.reset.setReg 2 30)).map (fun t => (t.st, t.tone, t.out)) =
      some (30, true, [.startTone]) ∧
    (after 0xF218 { State.reset with st := 9, tone := true }).map (fun t => (t.st, t.tone, t.out)) = some (0, true, []) := by
  decide

/-! ## The frame -/

/-- T193's second frame end: the tenth slot, then phase 3 sends `stop_tone`; E10's floor. -/
theorem test_timers : (after 0x1200 { State.reset with slot := 9, st := 1, tone := true }).map
    (fun t => (t.st, t.dt, t.tone, t.out, t.slot)) = some (0, 0, false, [.stopTone], 10) := by decide

/-- T195: one flush at the end of the frame. -/
theorem test_flush : (after 0x1200 { State.reset with slot := 9, dirty := true }).map (fun t => (t.dirty, t.out)) =
    some (false, [.flush (Vector.replicate 32 0)]) := by decide

/-- T196: the stop request is seen when the frame is complete. -/
theorem test_stop : (after 0x1200 { State.reset with slot := 9, hostIdle := ⟨0, none, true⟩ }).map (·.runState) = some .stopped ∧
    (after 0x1200 { State.reset with slot := 8, hostIdle := ⟨0, none, true⟩ }).map (·.runState) = some .running := by decide

/-! ## Reset and memory -/

/-- R39: the empty image and the default font are the state after reset. -/
theorem test_reset : State.resetWith false defaultFontVector [] = State.reset := by decide

/-- R62, G1: glyph 0 and glyph F. -/
theorem test_font : Memory.bytes [] 0 5 = [0xF0, 0x90, 0x90, 0x90, 0xF0] ∧ Memory.bytes [] 75 6 = [0xF0, 0x80, 0xF0, 0x80, 0x80, 0] := by
  decide

/-- T14: one byte too long. -/
theorem test_image_too_large (image : List Byte) (h : image.length = 3585) :
    (State.resetWith false defaultFontVector image).faultRecord? = some ⟨.imageTooLarge, 512, none, 3585⟩ := by
  simp [State.resetWith, State.faultRecord?, imageFault, h]

/-- Writing what an unlisted address reads as removes the entry. -/
theorem test_memory_canonical : (Memory.write [] 600 7).write 600 0 = [] ∧
    ((Memory.write [] 600 7).write 500 1) = [(500, 1), (600, 7)] := by decide

/-- The host's numbering of a table word: bits 15 to 0 of the first word (R90). -/
theorem test_table_word : decodeTableWord 16 0x8126 = some (.shr 1 2) ∧ decodeTableWord 16 0x8128 = none := by decide

/-! ## Witnesses: for every statement with hypotheses, states and operands that meet them, at the edges of their ranges -/

/-- A machine about to jump to itself. -/
def loop : State := State.reset.withFetchWord 16 0x1200

theorem witness_EncodeOfDecode : decode 0x8126 = .ok (.shr 1 2) := by decide

theorem witness_DecoderFollowsMaskTable : legalOpcode 0x8126 = true ∧ legalOpcode 0x8128 = false ∧
    (Instr.shr 0 0).row ∈ opcodeRows ∧ (Instr.shr 0 0).row.fits 0x8126 = true := by decide

theorem witness_StepRunsDecodedInstruction : loop.runState = .running ∧ loop.pc.toNat ≤ 4094 ∧
    decode (wordOfBytes (loop.mem.byte loop.pc.toNat) (loop.mem.byte (loop.pc.toNat + 1))) = .ok (.jp 0x200) := by decide

theorem witness_FetchIsBigEndianAndBounded : (State.reset.setPc 4094).pc.toNat ≤ 4094 ∧
    4094 < (State.reset.setPc 4095).pc.toNat := by decide

theorem witness_IllegalWordFaults : State.reset.runState = .running ∧ State.reset.pc.toNat ≤ 4094 ∧
    legalOpcode State.reset.fetchWord = false := by decide

theorem witness_FaultEntryWritesOnlyTheRecord : State.reset.runState = .running ∧
    ∃ r, step State.reset = .fault (.raised r) := ⟨rfl, _, rfl⟩

theorem witness_FaultedAndStoppedStay : (tick State.reset).runState = .faulted ⟨.unknownOpcode, 512, some 0, 0⟩ ∧
    { State.reset with runState := .stopped }.runState = .stopped := by decide

/-- R253 at its edges, for control transfer: the last stack depth and target that pass, and the first that do not. -/
theorem witness_FaultsExactlyByTheTable :
    faultTable State.reset .ret = some (.stackUnderflow, 0) ∧ faultTable { State.reset with stack := [514] } .ret = none ∧
    faultTable State.reset (.jp 512) = none ∧ faultTable State.reset (.jp 511) = some (.reservedTarget, 511) ∧
    faultTable { State.reset with stack := List.replicate 11 514 } (.call 512) = none ∧
    faultTable { State.reset with stack := List.replicate 12 514 } (.call 512) = some (.stackOverflow, 512) ∧
    faultTable { State.reset with stack := List.replicate 12 514 } (.call 511) = some (.reservedTarget, 511) ∧
    faultTable (State.reset.setReg 0 0xFF) (.jpV0 0xF00) = none ∧
    faultTable (State.reset.setReg 0 0xFF) (.jpV0 0xF01) = some (.addressOutOfBounds, 4096) ∧
    faultTable (State.reset.setReg 0 0xFF) (.jpV0 0x100) = some (.reservedTarget, 511) ∧
    faultTable (State.reset.setReg 0 0xFF) (.jpV0 0x101) = none := by decide

/-- R253 at its edges, for the index register and memory: the last sum, glyph and address that pass, and the first that do not. -/
theorem witness_FaultsExactlyByTheTable_memory :
    faultTable ((State.reset.setReg 1 0xFE).setI 0xFF01) (.addI 1) = none ∧
    faultTable ((State.reset.setReg 1 0xFF).setI 0xFF01) (.addI 1) = some (.indexOverflow, 65536) ∧
    faultTable (State.reset.setReg 1 15) (.ldF 1) = none ∧
    faultTable (State.reset.setReg 1 16) (.ldF 1) = some (.glyphIndexRange, 16) ∧
    faultTable (State.reset.setI 4093) (.ldB 0) = none ∧
    faultTable (State.reset.setI 4094) (.ldB 0) = some (.addressOutOfBounds, 4096) ∧
    faultTable (State.reset.setI 79) (.ldB 0) = some (.fontWrite, 79) ∧ faultTable (State.reset.setI 80) (.ldB 0) = none ∧
    faultTable (State.reset.setI 4094) (.ldMemVx 1) = none ∧
    faultTable (State.reset.setI 4095) (.ldMemVx 1) = some (.addressOutOfBounds, 4096) ∧
    faultTable (State.reset.setI 79) (.ldMemVx 1) = some (.fontWrite, 79) ∧
    faultTable (State.reset.setI 80) (.ldMemVx 1) = none ∧
    faultTable (State.reset.setI 4094) (.ldVxMem 1) = none ∧
    faultTable (State.reset.setI 4095) (.ldVxMem 1) = some (.addressOutOfBounds, 4096) ∧
    faultTable State.reset (.ldVxMem 15) = none := by decide

/-- R253 at its edges, for sprites and keys: the last run and key code that pass, and the first that do not; an empty run passes
anywhere, and an instruction without a check always does. -/
theorem witness_FaultsExactlyByTheTable_display_keys :
    faultTable (State.reset.setI 5000) (.drw 0 1 0) = none ∧
    faultTable (State.reset.setI 5000) (.drw 0 1 1) = some (.addressOutOfBounds, 5000) ∧
    faultTable (State.reset.setI 4081) (.drw 0 1 15) = none ∧
    faultTable (State.reset.setI 4082) (.drw 0 1 15) = some (.addressOutOfBounds, 4096) ∧
    faultTable (State.reset.setReg 5 15) (.skp 5) = none ∧
    faultTable (State.reset.setReg 5 16) (.skp 5) = some (.keyCodeRange, 16) ∧
    faultTable (State.reset.setReg 5 15) (.sknp 5) = none ∧
    faultTable (State.reset.setReg 5 255) (.sknp 5) = some (.keyCodeRange, 255) ∧
    faultTable State.reset .cls = none := by decide

theorem witness_LogicClearsFlag : (1 : Reg) ≠ VF := by decide

theorem witness_AddSetsCarry : (1 : Reg) ≠ VF ∧ 255 < ((withRegs 1 0xFF 2 1).reg 1).toNat + ((withRegs 1 0xFF 2 1).reg 2).toNat ∧
    ¬ 255 < ((withRegs 1 0x80 2 0x7F).reg 1).toNat + ((withRegs 1 0x80 2 0x7F).reg 2).toNat := by decide

theorem witness_SubtractSetsNoBorrow : (1 : Reg) ≠ VF ∧ ((withRegs 1 7 2 7).reg 2).toNat ≤ ((withRegs 1 7 2 7).reg 1).toNat ∧
    ¬ ((withRegs 1 0 2 1).reg 2).toNat ≤ ((withRegs 1 0 2 1).reg 1).toNat := by decide

theorem witness_ShiftsMoveOneBit : (7 : Byte) = (if (withRegs 1 7 2 4).legacy then (withRegs 1 7 2 4).reg 2 else (withRegs 1 7 2 4).reg 1) ∧
    (4 : Byte) = (if (inLegacy (withRegs 1 7 2 4)).legacy then (withRegs 1 7 2 4).reg 2 else (withRegs 1 7 2 4).reg 1) ∧
    (1 : Reg) ≠ VF := by decide

theorem witness_RandomTakesOneByte : { State.reset with randQueue := [0xA7] }.randQueue = [0xA7] := rfl

theorem witness_FlagRegisterWrittenOnlyWhereListed : definesFlag (.addImm 14 1) = false ∧
    namesDestination VF (.addImm 14 1) = false ∧ ∃ t, exec (.addImm 14 1) State.reset = .next t := ⟨rfl, rfl, _, rfl⟩

theorem witness_JumpSetsPc : 512 ≤ (512 : BitVec 12).toNat ∧ 512 ≤ (4095 : BitVec 12).toNat := by decide

theorem witness_CallPushesReturnAddress : 512 ≤ (512 : BitVec 12).toNat ∧
    { State.reset with stack := List.replicate 11 514 }.sp < 12 := by decide

theorem witness_ReturnPopsIntoPc : { State.reset with stack := [4096, 514] }.stack = 4096 :: [514] := rfl

theorem witness_JumpAddsV0 :
    512 ≤ (0x101 : BitVec 12).toNat + ((State.reset.setReg 0 0xFF).reg 0).toNat ∧
    (0x101 : BitVec 12).toNat + ((State.reset.setReg 0 0xFF).reg 0).toNat = 512 ∧
    (0xF00 : BitVec 12).toNat + ((State.reset.setReg 0 0xFF).reg 0).toNat = 4095 := by decide

theorem witness_ReturnUndoesCall : ∃ t, exec (.call 0x300) State.reset = .next t ∧ t.stack = t.stack := ⟨_, rfl, rfl⟩

theorem witness_OnlyCallAndReturnTouchStack : (∃ t, exec (.call 0x300) State.reset = .next t) ∧
    (∃ t, exec .ret { State.reset with stack := [514] } = .next t) ∧ ∃ t, exec .cls State.reset = .next t :=
  ⟨⟨_, rfl⟩, ⟨_, rfl⟩, _, rfl⟩

theorem witness_AddToIndex : ((State.reset.setReg 1 0xFE).setI 0xFF01).i.toNat +
    (((State.reset.setReg 1 0xFE).setI 0xFF01).reg 1).toNat = 65535 := by decide

theorem witness_GlyphAddressIsFiveTimes : ((State.reset.setReg 0 15).reg 0).toNat ≤ 15 := by decide

theorem witness_DigitsAreStored : (80 ≤ (State.reset.setI 80).i.toNat ∧ (State.reset.setI 80).i.toNat + 2 ≤ 4095) ∧
    80 ≤ (State.reset.setI 4093).i.toNat ∧ (State.reset.setI 4093).i.toNat + 2 ≤ 4095 := by decide

theorem witness_RegistersAreStored : (80 ≤ (State.reset.setI 80).i.toNat ∧ (State.reset.setI 80).i.toNat + (15 : Reg).val ≤ 4095) ∧
    80 ≤ (State.reset.setI 4080).i.toNat ∧ (State.reset.setI 4080).i.toNat + (15 : Reg).val ≤ 4095 := by decide

theorem witness_RegistersAreLoaded : State.reset.i.toNat + (15 : Reg).val ≤ 4095 ∧
    (State.reset.setI 4095).i.toNat + (0 : Reg).val ≤ 4095 := by decide

theorem witness_StoreThenLoadRestores : ∃ t, exec (.ldMemVx 3) (State.reset.setI 0x300) = .next t ∧
    (t.setI 0x300).mem = t.mem ∧ (t.setI 0x300).i = (State.reset.setI 0x300).i := ⟨_, rfl, rfl, rfl⟩

theorem witness_OnlyStoresWriteMemory : (∀ x, Instr.cls ≠ .ldB x) ∧ (∀ x, Instr.cls ≠ .ldMemVx x) ∧
    ∃ t, exec .cls State.reset = .next t := ⟨by decide, by decide, _, rfl⟩

theorem witness_FontIsNeverWritten : ∃ t, step loop = .next t := ⟨_, rfl⟩

theorem witness_SpriteIsXoredIn : ((0 : BitVec 4).toNat = 0) ∧ (State.reset.setI 4081).i.toNat + (15 : BitVec 4).toNat - 1 = 4095 := by
  decide

theorem witness_DrawingTwiceRestoresScreen : (0 : Reg) ≠ VF ∧ (1 : Reg) ≠ VF ∧
    exec (.drw 0 1 5) State.reset = .next (State.reset.drawSprite 0 1 5) ∧
    State.reset.fb.pixel 0 0 = false ∧ (State.reset.drawSprite 0 1 5).fb.pixel 0 0 = true :=
  ⟨by decide, by decide, rfl, by decide, by decide⟩

theorem witness_OnlyClearAndDrawTouchScreen : (∃ t, exec (.ldDTVx 0) State.reset = .next t) ∧ Instr.ldDTVx 0 ≠ .cls ∧
    ∀ x y n, Instr.ldDTVx 0 ≠ .drw x y n := ⟨⟨_, rfl⟩, by decide, fun _ _ _ h => by cases h⟩

theorem witness_KeySkips : ((State.reset.setReg 5 15).reg 5).toNat ≤ 15 ∧
    { State.reset with keysHeld := 0x8000 }.keysHeld.getLsbD 15 = true ∧ State.reset.keysHeld.getLsbD 15 = false := by decide

theorem witness_KeyWaitTakesEventOrRewinds : { State.reset with keyEvent := some 0 }.keyEvent = some 0 ∧
    State.reset.keyEvent = none := by decide

theorem witness_SoundTimerWrite : (State.reset.setReg 2 1).reg 2 ≠ 0 ∧ State.reset.reg 2 = 0 := by decide

theorem witness_InputPhaseLatchesHostRecord : State.reset.slot = 0 ∧ 10 ≤ { State.reset with slot := 10 }.slot ∧
    0 < { State.reset with slot := 9 }.slot ∧ { State.reset with slot := 9 }.slot < 10 := by decide

theorem witness_TimerPhase : { State.reset with st := 1 }.st = 1 ∧ { State.reset with st := 2 }.st ≠ 1 ∧ State.reset.st ≠ 1 := by
  decide

theorem witness_DisplayPhase : { State.reset with dirty := true }.dirty = true ∧ State.reset.dirty = false := by decide

theorem witness_TenthSlotEndsFrame : loop.runState = .running ∧ { loop with slot := 9 }.slot = 9 ∧ loop.slot ≠ 9 ∧
    { loop with slot := 10 }.slot ≤ 10 ∧ (∃ t, runInstr (beginSlot loop) = .next t) ∧
    (∃ t, runInstr (beginSlot { loop with slot := 9 }) = .next t) ∧
    ∃ t, runInstr (beginSlot { loop with slot := 10 }) = .next t :=
  ⟨rfl, rfl, by decide, by decide, ⟨_, rfl⟩, ⟨_, rfl⟩, _, rfl⟩

theorem witness_SlotCountAdvances : loop.runState = .running ∧ (∃ t, step { loop with slot := 10 } = .next t) ∧
    ∃ t, step { loop with slot := 9 } = .next t := ⟨rfl, ⟨_, rfl⟩, _, rfl⟩

theorem witness_StopsOnlyOnRequestAtFrameEnd : loop.runState = .running ∧
    { loop with slot := 9, hostIdle := ⟨0, none, true⟩ }.hostNow.stopReq = true ∧
    (∃ t, step { loop with slot := 9, hostIdle := ⟨0, none, true⟩ } = .next t) ∧ ∃ t, step loop = .next t :=
  ⟨rfl, rfl, ⟨_, rfl⟩, _, rfl⟩

/-- A slot whose FX0A takes the key event of its frame. -/
theorem witness_LatchesHoldWithinFrame_used :
    decode ({ State.reset with slot := 5, keyEvent := some 3 }.withFetchWord 16 0xF10A).fetchWord = .ok (.ldVxK 1) ∧
    (after 0xF10A { State.reset with slot := 5, keyEvent := some 3 }).map (·.keyEvent) = some none := by decide

theorem witness_LatchesHoldWithinFrame : { loop with slot := 1 }.runState = .running ∧ 0 < { loop with slot := 1 }.slot ∧
    { loop with slot := 9 }.slot < 10 ∧ (∃ t, step { loop with slot := 1 } = .next t) ∧
    ∃ t, step { loop with slot := 9 } = .next t := ⟨rfl, by decide, by decide, ⟨_, rfl⟩, _, rfl⟩

/-- A slot inside a frame, the slot after reset, and the slot that opens the next frame. -/
theorem witness_DelayTimerHoldsWithinFrame : loop.runState = .running ∧
    ({ loop with slot := 8 }.slot ≤ 10 ∧ { loop with slot := 8 }.slot ≠ 9) ∧ (loop.slot ≤ 10 ∧ loop.slot ≠ 9) ∧
    ({ loop with slot := 10 }.slot ≤ 10 ∧ { loop with slot := 10 }.slot ≠ 9) ∧
    decode loop.fetchWord = .ok (.jp 512) ∧ (∀ x, Instr.jp 512 ≠ .ldDTVx x) ∧ (∃ t, step { loop with slot := 8 } = .next t) ∧
    (∃ t, step loop = .next t) ∧ ∃ t, step { loop with slot := 10 } = .next t :=
  ⟨rfl, by decide, by decide, by decide, by decide, by decide, ⟨_, rfl⟩, ⟨_, rfl⟩, _, rfl⟩

/-- The same slots. -/
theorem witness_SoundTimerHoldsWithinFrame : loop.runState = .running ∧ loop.slot ≤ 10 ∧ loop.slot ≠ 9 ∧
    decode loop.fetchWord = .ok (.jp 512) ∧ (∀ x, Instr.jp 512 ≠ .ldSTVx x) ∧ (∃ t, step { loop with slot := 8 } = .next t) ∧
    (∃ t, step loop = .next t) ∧ ∃ t, step { loop with slot := 10 } = .next t :=
  ⟨rfl, by decide, by decide, by decide, by decide, ⟨_, rfl⟩, ⟨_, rfl⟩, _, rfl⟩

/-- The tenth slot with a dirty buffer and with a clean one, and another slot with a dirty buffer. -/
theorem witness_FlushOnlyAtFrameEnd :
    (∃ t u, runInstr (beginSlot { loop with slot := 9, dirty := true }) = .next t ∧ t.dirty = true ∧
      step { loop with slot := 9, dirty := true } = .next u) ∧
    (∃ t u, runInstr (beginSlot { loop with slot := 9 }) = .next t ∧ t.dirty = false ∧ step { loop with slot := 9 } = .next u) ∧
    ∃ t u, runInstr (beginSlot { loop with dirty := true }) = .next t ∧ t.dirty = true ∧
      step { loop with dirty := true } = .next u :=
  ⟨⟨_, _, rfl, rfl, rfl⟩, ⟨_, _, rfl, rfl, rfl⟩, _, _, rfl, rfl, rfl⟩

/-- Ten slots of a jump to itself, from reset and from the end of a frame. -/
theorem witness_FrameRunsTenSlots : loop.runState = .running ∧ loop.slot = 0 ∧ { loop with slot := 10 }.slot = 10 ∧
    (frame loop).faultRecord? = none ∧ (frame { loop with slot := 10 }).faultRecord? = none := by decide

theorem witness_StepKeepsInvariant : Inv loop ∧ ∃ t, step loop = .next t := ⟨by decide, _, rfl⟩

theorem witness_ResetLoadsFontAndImage : (State.resetWith false defaultFontVector []).legacy = false ∧
    (List.replicate 3584 (0 : Byte)).length ≤ 3584 ∧ 3584 < (List.replicate 3585 (0 : Byte)).length :=
  ⟨rfl, by rw [List.length_replicate], by rw [List.length_replicate]; omega⟩

end Sys2Proof.Machine.Tests
end

namespace Sys2Proof.Machine

/-! ## Fetch (R65, R67, R121)

What the fetch bound reports past the end of memory, and what one instruction answers on each side of it. -/

theorem fetchCheck_of_gt {pc : Word} (h : 4094 < pc.toNat) :
    fetchCheck pc = some ⟨.addressOutOfBounds, pc.toNat⟩ := by
  unfold fetchCheck
  rw [if_neg (by simp only [Config.memSize]; omega)]

/-- R67: the byte at the program counter is the high byte. -/
theorem State.toNat_fetchWord (s : State) :
    s.fetchWord.toNat = (s.mem.byte s.pc.toNat).toNat * 256 + (s.mem.byte (s.pc.toNat + 1)).toNat :=
  toNat_wordOfBytes _ _

theorem runInstr_of_pc_le {s : State} (h : s.pc.toNat ≤ 4094) : runInstr s = execWord s.fetchWord s := by
  unfold runInstr
  rw [fetchCheck_none_iff.mpr h]

theorem runInstr_of_pc_gt {s : State} (h : 4094 < s.pc.toNat) :
    runInstr s = .fault (.raised ⟨.addressOutOfBounds, s.pc, none, s.pc.toNat⟩) := by
  unfold runInstr
  rw [fetchCheck_of_gt h]
  rfl

/-- Settles O6: the word is read off its two bytes, and the two cases of the bound are the two answers of `runInstr`. -/
theorem fetchIsBigEndianAndBounded : Obligations.FetchIsBigEndianAndBounded := by
  unfold Obligations.FetchIsBigEndianAndBounded
  intro s
  constructor
  · intro hle
    exact ⟨s.toNat_fetchWord, runInstr_of_pc_le hle⟩
  · exact runInstr_of_pc_gt

end Sys2Proof.Machine

namespace Sys2Proof

/-! ## Decoding an instruction's own word (R91, R92, R95) -/

theorem decode_eq_ok_iff {op : Word} {i : Instr} : decode op = .ok i ↔ decodeFields (fieldsOf op) = some i := by
  unfold decode
  cases decodeFields (fieldsOf op) <;> simp

/-- One case per family: the top nibble of the word selects it, and the sub-operation its member (R96). -/
theorem decodeFields_encode (i : Instr) : decodeFields (fieldsOf (encode i)) = some i := by
  cases i
  case cls | ret => rfl
  case ldReg | orReg | andReg | xorReg | addReg | subReg | shr | subn | shl => simp [encode, decodeFields, decode8]
  case skp | sknp => simp [encode, decodeFields, decodeE]
  case ldVxDT | ldVxK | ldDTVx | ldSTVx | addI | ldF | ldB | ldMemVx | ldVxMem =>
    simp [encode, decodeFields, decodeF]
  case jp | call | ldI | jpV0 | seImm | sneImm | ldImm | addImm | rnd | seReg | sneReg | drw =>
    simp [encode, decodeFields]

theorem decode_encode (i : Instr) : decode (encode i) = .ok i := decode_eq_ok_iff.mpr (decodeFields_encode i)

/-- Settles O2, from the fields of each format's word. -/
theorem decodeOfEncode : Obligations.DecodeOfEncode := by
  unfold Obligations.DecodeOfEncode
  exact decode_encode

theorem encode_injective : Function.Injective encode := by
  intro i j h
  have hi := decode_encode i
  rw [h, decode_encode j] at hi
  exact (Except.ok.inj hi).symm

/-! ## The word of what a word decodes to (R98) -/

/-- One test of the dispatch after the other (R94, R96): whichever family is taken, its format puts the fields
together to the instruction's word. -/
theorem encode_of_decodeFields {f : Fields} {i : Instr} (h : decodeFields f = some i) :
    encode i = wordNNN f.t f.nnn ∨ encode i = wordXNN f.t f.x f.nn ∨ encode i = wordXYN f.t f.x f.y f.n := by
  unfold decodeFields at h
  rcases ite_eq_some_cases h with ⟨e, h⟩ | ⟨h0, h⟩
  · exact .inl (by rw [e, encode_of_decode0 h])
  rcases ite_eq_some_cases h with ⟨e, h⟩ | ⟨h1, h⟩
  · exact .inl (by rw [e, ← Option.some.inj h]; rfl)
  rcases ite_eq_some_cases h with ⟨e, h⟩ | ⟨h2, h⟩
  · exact .inl (by rw [e, ← Option.some.inj h]; rfl)
  rcases ite_eq_some_cases h with ⟨e, h⟩ | ⟨h3, h⟩
  · exact .inr (.inl (by rw [e, ← Option.some.inj h]; rfl))
  rcases ite_eq_some_cases h with ⟨e, h⟩ | ⟨h4, h⟩
  · exact .inr (.inl (by rw [e, ← Option.some.inj h]; rfl))
  rcases ite_eq_some_cases h with ⟨e, h⟩ | ⟨h5, h⟩
  · obtain ⟨hn, h⟩ := Option.ite_none_right_eq_some.mp h
    exact .inr (.inr (by rw [e, hn, ← Option.some.inj h]; rfl))
  rcases ite_eq_some_cases h with ⟨e, h⟩ | ⟨h6, h⟩
  · exact .inr (.inl (by rw [e, ← Option.some.inj h]; rfl))
  rcases ite_eq_some_cases h with ⟨e, h⟩ | ⟨h7, h⟩
  · exact .inr (.inl (by rw [e, ← Option.some.inj h]; rfl))
  rcases ite_eq_some_cases h with ⟨e, h⟩ | ⟨h8, h⟩
  · exact .inr (.inr (by rw [e, encode_of_decode8 h]))
  rcases ite_eq_some_cases h with ⟨e, h⟩ | ⟨h9, h⟩
  · obtain ⟨hn, h⟩ := Option.ite_none_right_eq_some.mp h
    exact .inr (.inr (by rw [e, hn, ← Option.some.inj h]; rfl))
  rcases ite_eq_some_cases h with ⟨e, h⟩ | ⟨hA, h⟩
  · exact .inl (by rw [e, ← Option.some.inj h]; rfl)
  rcases ite_eq_some_cases h with ⟨e, h⟩ | ⟨hB, h⟩
  · exact .inl (by rw [e, ← Option.some.inj h]; rfl)
  rcases ite_eq_some_cases h with ⟨e, h⟩ | ⟨hC, h⟩
  · exact .inr (.inl (by rw [e, ← Option.some.inj h]; rfl))
  rcases ite_eq_some_cases h with ⟨e, h⟩ | ⟨hD, h⟩
  · exact .inr (.inr (by rw [e, ← Option.some.inj h]; rfl))
  rcases ite_eq_some_cases h with ⟨e, h⟩ | ⟨hE, h⟩
  · exact .inr (.inl (by rw [e, encode_of_decodeE h]))
  have e := nibble_eq_F f.t h0 h1 h2 h3 h4 h5 h6 h7 h8 h9 hA hB hC hD hE
  exact .inr (.inl (by rw [e, encode_of_decodeF h]))

theorem encode_of_decode {op : Word} {i : Instr} (h : decode op = .ok i) : encode i = op := by
  rcases encode_of_decodeFields (decode_eq_ok_iff.mp h) with hi | hi | hi
  · exact hi.trans (wordNNN_fieldsOf op)
  · exact hi.trans (wordXNN_fieldsOf op)
  · exact hi.trans (wordXYN_fieldsOf op)

/-- Settles O3, from the three formats of R92, each of which keeps every bit of the word. -/
theorem encodeOfDecode : Obligations.EncodeOfDecode := by
  unfold Obligations.EncodeOfDecode
  intro op i h
  exact encode_of_decode h

/-! ## A word that fits a row, from the row's instruction (R95)

The value of a row is the row's format with every operand nibble 0. A word that fits the row is the format with the
word's own operands, so it is the word of an instruction of that row. -/

theorem OpcodeRow.fits_iff {r : OpcodeRow} {op : Word} : r.fits op = true ↔ op &&& r.mask = r.value := by
  simp [OpcodeRow.fits]

/-- A row without operands masks nothing out, so its value is the one word that fits. -/
theorem eq_of_fits_wholeWord {op v : Word} (h : OpcodeRow.fits ⟨0xFFFF, v⟩ op = true) : v = op :=
  (OpcodeRow.fits_iff.mp h).symm.trans BitVec.and_allOnes

theorem wordNNN_of_fits {op : Word} (t : BitVec 4) (h : OpcodeRow.fits ⟨0xF000, wordNNN t 0⟩ op = true) :
    wordNNN t (fieldsOf op).nnn = op := by
  have hw := OpcodeRow.fits_iff.mp h
  rw [← wordNNN_fieldsOf op, and_wordNNN] at hw
  have ht : (fieldsOf op).t = t := by simpa using congrArg (fun w => (fieldsOf w).t) hw
  rw [← ht, wordNNN_fieldsOf]

theorem wordXNN_of_fits {op : Word} (t : BitVec 4) (h : OpcodeRow.fits ⟨0xF000, wordXNN t 0 0⟩ op = true) :
    wordXNN t (fieldsOf op).x (fieldsOf op).nn = op := by
  have hw := OpcodeRow.fits_iff.mp h
  rw [← wordXNN_fieldsOf op, and_wordXNN] at hw
  have ht : (fieldsOf op).t = t := by simpa using congrArg (fun w => (fieldsOf w).t) hw
  rw [← ht, wordXNN_fieldsOf]

/-- Format `X`: the low byte is the sub-operation. -/
theorem wordX_of_fits {op : Word} (t : BitVec 4) (nn : Byte) (h : OpcodeRow.fits ⟨0xF0FF, wordXNN t 0 nn⟩ op = true) :
    wordXNN t (fieldsOf op).x nn = op := by
  have hw := OpcodeRow.fits_iff.mp h
  rw [← wordXNN_fieldsOf op, and_wordX] at hw
  have ht : (fieldsOf op).t = t := by simpa using congrArg (fun w => (fieldsOf w).t) hw
  have hnn : (fieldsOf op).nn = nn := by simpa using congrArg (fun w => (fieldsOf w).nn) hw
  rw [← ht, ← hnn, wordXNN_fieldsOf]

/-- Format `XY`: the low nibble is the sub-operation. -/
theorem wordXY_of_fits {op : Word} (t n : BitVec 4) (h : OpcodeRow.fits ⟨0xF00F, wordXYN t 0 0 n⟩ op = true) :
    wordXYN t (fieldsOf op).x (fieldsOf op).y n = op := by
  have hw := OpcodeRow.fits_iff.mp h
  rw [← wordXYN_fieldsOf op, and_wordXY] at hw
  have ht : (fieldsOf op).t = t := by simpa using congrArg (fun w => (fieldsOf w).t) hw
  have hn : (fieldsOf op).n = n := by simpa using congrArg (fun w => (fieldsOf w).n) hw
  rw [← ht, ← hn, wordXYN_fieldsOf]

theorem wordXYN_of_fits {op : Word} (t : BitVec 4) (h : OpcodeRow.fits ⟨0xF000, wordXYN t 0 0 0⟩ op = true) :
    wordXYN t (fieldsOf op).x (fieldsOf op).y (fieldsOf op).n = op := by
  have hw := OpcodeRow.fits_iff.mp h
  rw [← wordXYN_fieldsOf op, and_wordXYN] at hw
  have ht : (fieldsOf op).t = t := by simpa using congrArg (fun w => (fieldsOf w).t) hw
  rw [← ht, wordXYN_fieldsOf]

/-- A word that fits an instruction's row is the word of an instruction of that row, its operands read from the word. -/
theorem exists_encode_of_fits {i : Instr} {op : Word} (h : i.row.fits op = true) :
    ∃ j : Instr, j.row = i.row ∧ encode j = op := by
  cases i
  case cls => exact ⟨.cls, rfl, eq_of_fits_wholeWord h⟩
  case ret => exact ⟨.ret, rfl, eq_of_fits_wholeWord h⟩
  case jp => exact ⟨.jp (fieldsOf op).nnn, rfl, wordNNN_of_fits 0x1 h⟩
  case call => exact ⟨.call (fieldsOf op).nnn, rfl, wordNNN_of_fits 0x2 h⟩
  case seImm => exact ⟨.seImm (fieldsOf op).x (fieldsOf op).nn, rfl, wordXNN_of_fits 0x3 h⟩
  case sneImm => exact ⟨.sneImm (fieldsOf op).x (fieldsOf op).nn, rfl, wordXNN_of_fits 0x4 h⟩
  case seReg => exact ⟨.seReg (fieldsOf op).x (fieldsOf op).y, rfl, wordXY_of_fits 0x5 0x0 h⟩
  case ldImm => exact ⟨.ldImm (fieldsOf op).x (fieldsOf op).nn, rfl, wordXNN_of_fits 0x6 h⟩
  case addImm => exact ⟨.addImm (fieldsOf op).x (fieldsOf op).nn, rfl, wordXNN_of_fits 0x7 h⟩
  case ldReg => exact ⟨.ldReg (fieldsOf op).x (fieldsOf op).y, rfl, wordXY_of_fits 0x8 0x0 h⟩
  case orReg => exact ⟨.orReg (fieldsOf op).x (fieldsOf op).y, rfl, wordXY_of_fits 0x8 0x1 h⟩
  case andReg => exact ⟨.andReg (fieldsOf op).x (fieldsOf op).y, rfl, wordXY_of_fits 0x8 0x2 h⟩
  case xorReg => exact ⟨.xorReg (fieldsOf op).x (fieldsOf op).y, rfl, wordXY_of_fits 0x8 0x3 h⟩
  case addReg => exact ⟨.addReg (fieldsOf op).x (fieldsOf op).y, rfl, wordXY_of_fits 0x8 0x4 h⟩
  case subReg => exact ⟨.subReg (fieldsOf op).x (fieldsOf op).y, rfl, wordXY_of_fits 0x8 0x5 h⟩
  case shr => exact ⟨.shr (fieldsOf op).x (fieldsOf op).y, rfl, wordXY_of_fits 0x8 0x6 h⟩
  case subn => exact ⟨.subn (fieldsOf op).x (fieldsOf op).y, rfl, wordXY_of_fits 0x8 0x7 h⟩
  case shl => exact ⟨.shl (fieldsOf op).x (fieldsOf op).y, rfl, wordXY_of_fits 0x8 0xE h⟩
  case sneReg => exact ⟨.sneReg (fieldsOf op).x (fieldsOf op).y, rfl, wordXY_of_fits 0x9 0x0 h⟩
  case ldI => exact ⟨.ldI (fieldsOf op).nnn, rfl, wordNNN_of_fits 0xA h⟩
  case jpV0 => exact ⟨.jpV0 (fieldsOf op).nnn, rfl, wordNNN_of_fits 0xB h⟩
  case rnd => exact ⟨.rnd (fieldsOf op).x (fieldsOf op).nn, rfl, wordXNN_of_fits 0xC h⟩
  case drw => exact ⟨.drw (fieldsOf op).x (fieldsOf op).y (fieldsOf op).n, rfl, wordXYN_of_fits 0xD h⟩
  case skp => exact ⟨.skp (fieldsOf op).x, rfl, wordX_of_fits 0xE 0x9E h⟩
  case sknp => exact ⟨.sknp (fieldsOf op).x, rfl, wordX_of_fits 0xE 0xA1 h⟩
  case ldVxDT => exact ⟨.ldVxDT (fieldsOf op).x, rfl, wordX_of_fits 0xF 0x07 h⟩
  case ldVxK => exact ⟨.ldVxK (fieldsOf op).x, rfl, wordX_of_fits 0xF 0x0A h⟩
  case ldDTVx => exact ⟨.ldDTVx (fieldsOf op).x, rfl, wordX_of_fits 0xF 0x15 h⟩
  case ldSTVx => exact ⟨.ldSTVx (fieldsOf op).x, rfl, wordX_of_fits 0xF 0x18 h⟩
  case addI => exact ⟨.addI (fieldsOf op).x, rfl, wordX_of_fits 0xF 0x1E h⟩
  case ldF => exact ⟨.ldF (fieldsOf op).x, rfl, wordX_of_fits 0xF 0x29 h⟩
  case ldB => exact ⟨.ldB (fieldsOf op).x, rfl, wordX_of_fits 0xF 0x33 h⟩
  case ldMemVx => exact ⟨.ldMemVx (fieldsOf op).x, rfl, wordX_of_fits 0xF 0x55 h⟩
  case ldVxMem => exact ⟨.ldVxMem (fieldsOf op).x, rfl, wordX_of_fits 0xF 0x65 h⟩

/-! ## The table and the decoder (R95, R97) -/

theorem legalOpcode_iff {op : Word} : legalOpcode op = true ↔ ∃ r ∈ opcodeRows, r.fits op = true := by
  simp [legalOpcode]

theorem row_mem_opcodeRows (i : Instr) : i.row ∈ opcodeRows := by
  cases i <;> simp [opcodeRows, opcodeRowsLow, opcodeRowsMid, opcodeRowsHigh, Instr.row]

theorem exists_row_eq {r : OpcodeRow} (h : r ∈ opcodeRows) : ∃ i : Instr, i.row = r := by
  revert r
  simp [opcodeRows, opcodeRowsLow, opcodeRowsMid, opcodeRowsHigh]

theorem exists_encode_of_mem_rows {r : OpcodeRow} {op : Word} (hr : r ∈ opcodeRows) (h : r.fits op = true) :
    ∃ i : Instr, i.row = r ∧ encode i = op := by
  obtain ⟨i, rfl⟩ := exists_row_eq hr
  exact exists_encode_of_fits h

/-- The family `FitsRow` put together. -/
theorem row_fits_encode : ∀ i : Instr, i.row.fits (encode i) = true
  | .cls => Laws.FitsRow.cls
  | .ret => Laws.FitsRow.ret
  | .jp nnn => Laws.FitsRow.jp nnn
  | .call nnn => Laws.FitsRow.call nnn
  | .seImm x nn => Laws.FitsRow.seImm x nn
  | .sneImm x nn => Laws.FitsRow.sneImm x nn
  | .seReg x y => Laws.FitsRow.seReg x y
  | .ldImm x nn => Laws.FitsRow.ldImm x nn
  | .addImm x nn => Laws.FitsRow.addImm x nn
  | .ldReg x y => Laws.FitsRow.ldReg x y
  | .orReg x y => Laws.FitsRow.orReg x y
  | .andReg x y => Laws.FitsRow.andReg x y
  | .xorReg x y => Laws.FitsRow.xorReg x y
  | .addReg x y => Laws.FitsRow.addReg x y
  | .subReg x y => Laws.FitsRow.subReg x y
  | .shr x y => Laws.FitsRow.shr x y
  | .subn x y => Laws.FitsRow.subn x y
  | .shl x y => Laws.FitsRow.shl x y
  | .sneReg x y => Laws.FitsRow.sneReg x y
  | .ldI nnn => Laws.FitsRow.ldI nnn
  | .jpV0 nnn => Laws.FitsRow.jpV0 nnn
  | .rnd x nn => Laws.FitsRow.rnd x nn
  | .drw x y n => Laws.FitsRow.drw x y n
  | .skp x => Laws.FitsRow.skp x
  | .sknp x => Laws.FitsRow.sknp x
  | .ldVxDT x => Laws.FitsRow.ldVxDT x
  | .ldVxK x => Laws.FitsRow.ldVxK x
  | .ldDTVx x => Laws.FitsRow.ldDTVx x
  | .ldSTVx x => Laws.FitsRow.ldSTVx x
  | .addI x => Laws.FitsRow.addI x
  | .ldF x => Laws.FitsRow.ldF x
  | .ldB x => Laws.FitsRow.ldB x
  | .ldMemVx x => Laws.FitsRow.ldMemVx x
  | .ldVxMem x => Laws.FitsRow.ldVxMem x

/-- The table is complete: the legal words are the words of the instructions. -/
theorem legalOpcode_iff_exists_encode {op : Word} : legalOpcode op = true ↔ ∃ i, encode i = op := by
  rw [legalOpcode_iff]
  constructor
  · rintro ⟨r, hr, hfits⟩
    obtain ⟨i, -, hi⟩ := exists_encode_of_mem_rows hr hfits
    exact ⟨i, hi⟩
  · rintro ⟨i, rfl⟩
    exact ⟨i.row, row_mem_opcodeRows i, row_fits_encode i⟩

theorem decode_of_not_legal {op : Word} (h : legalOpcode op = false) : decode op = .error (.illegal op) := by
  cases hd : decodeFields (fieldsOf op) with
  | none => simp [decode, hd]
  | some i =>
    have hl := legalOpcode_iff_exists_encode.mpr ⟨i, encode_of_decode (decode_eq_ok_iff.mpr hd)⟩
    simp [h] at hl

/-- No word fits two rows: both would be the row of the one instruction the word encodes. -/
theorem row_unique {op : Word} {r q : OpcodeRow} (hr : r ∈ opcodeRows) (hq : q ∈ opcodeRows) (hrf : r.fits op = true)
    (hqf : q.fits op = true) : r = q := by
  obtain ⟨i, rfl, hi⟩ := exists_encode_of_mem_rows hr hrf
  obtain ⟨j, rfl, hj⟩ := exists_encode_of_mem_rows hq hqf
  rw [encode_injective (hi.trans hj.symm)]

/-- Settles O4: a word that fits a row is the word of an instruction of that row, and every instruction decodes from its
word. -/
theorem decoderFollowsMaskTable : Obligations.DecoderFollowsMaskTable := by
  unfold Obligations.DecoderFollowsMaskTable
  refine ⟨fun op hl => ?_, fun op => decode_of_not_legal, rfl, fun op r q => row_unique⟩
  obtain ⟨i, rfl⟩ := legalOpcode_iff_exists_encode.mp hl
  exact ⟨i, decode_encode i, row_fits_encode i⟩

/-- Settles O1: the sample words are closed, so the decoder is evaluated on each. -/
theorem sampleWordsDecode : Obligations.SampleWordsDecode := by
  unfold Obligations.SampleWordsDecode
  decide

end Sys2Proof

namespace Sys2Proof.Machine

/-! ## No refusal (R99)

Each instruction's meaning completes, or it is a guarded effect, which completes or raises; the step adds no other
answer. -/

theorem execRet_not_refused {s : State} {r : Refusal} : execRet s ≠ .refused r := by
  unfold execRet
  split <;> simp [raise]

theorem exec_not_refused (i : Instr) (s : State) (r : Refusal) : exec i s ≠ .refused r := by
  cases i
  case ret => exact execRet_not_refused
  case jp | call | jpV0 | addI | ldF | ldB | ldMemVx | ldVxMem | drw | skp | sknp => exact guarded_not_refused
  all_goals nofun

theorem execWord_not_refused (op : Word) (s : State) (r : Refusal) : execWord op s ≠ .refused r := by
  unfold execWord
  split
  · simp
  · exact exec_not_refused _ _ r

theorem runInstr_not_refused (s : State) (r : Refusal) : runInstr s ≠ .refused r := by
  unfold runInstr
  split
  · simp
  · exact execWord_not_refused _ s r

theorem finishSlot_refused_iff {a : Result} {r : Refusal} : finishSlot a = .refused r ↔ a = .refused r := by
  cases a <;> simp [finishSlot]

theorem step_not_refused (s : State) (r : Refusal) : step s ≠ .refused r := by
  unfold step
  split
  · exact fun h => runInstr_not_refused _ r (finishSlot_refused_iff.mp h)
  · simp
  · simp

/-- Settles O11: every arm completes or is guarded, and decoding, the fetch and the frame phases answer no refusal. -/
theorem nothingIsRefused : Obligations.NothingIsRefused := by
  unfold Obligations.NothingIsRefused
  exact ⟨exec_not_refused, step_not_refused⟩

end Sys2Proof.Machine

namespace Sys2Proof.Machine

/-! ## One slot of a running machine (R120, R124)

Phase 1 moves neither the program counter nor memory, so a slot fetches the word that the state before it holds; what that
word decodes to decides the slot's answer. -/

@[simp] theorem beginSlot_pc (s : State) : (beginSlot s).pc = s.pc := by
  obtain ⟨-, -, hpc, -⟩ := beginSlot_sameProgram s
  exact hpc

@[simp] theorem beginSlot_mem (s : State) : (beginSlot s).mem = s.mem := by
  obtain ⟨-, -, -, -, hmem, -⟩ := beginSlot_sameProgram s
  exact hmem

@[simp] theorem beginSlot_fetchWord (s : State) : (beginSlot s).fetchWord = s.fetchWord := by
  simp [State.fetchWord]

theorem execWord_of_decode_ok {op : Word} {i : Instr} (h : decode op = .ok i) (s : State) :
    execWord op s = exec i (s.setPc (s.pc + 2)) := by
  simp [execWord, h]

theorem execWord_of_not_legal {op : Word} (h : legalOpcode op = false) (s : State) :
    execWord op s = .fault (.raised (illegalFault op s)) := by
  simp [execWord, decode_of_not_legal h]

/-- R120: fetch, then decode and execute, between the frame phases of the slot. -/
theorem step_of_pc_le {s : State} (hrun : s.runState = .running) (hpc : s.pc.toNat ≤ 4094) :
    step s = finishSlot (execWord s.fetchWord (beginSlot s)) := by
  have hfetch : runInstr (beginSlot s) = execWord s.fetchWord (beginSlot s) := by
    simpa using runInstr_of_pc_le (s := beginSlot s) (by simpa using hpc)
  simp [step, hrun, hfetch]

/-- Settles O5: the slot's word is the one the two bytes form, and it decodes. -/
theorem stepRunsDecodedInstruction : Obligations.StepRunsDecodedInstruction := by
  unfold Obligations.StepRunsDecodedInstruction
  intro s i hrun hpc hdecode
  rw [step_of_pc_le hrun hpc, State.fetchWord, execWord_of_decode_ok hdecode, beginSlot_pc]

/-- Settles O7: a word no row matches does not decode, and the fault passes the frame phases by. -/
theorem illegalWordFaults : Obligations.IllegalWordFaults := by
  unfold Obligations.IllegalWordFaults
  intro s hrun hpc hillegal
  rw [step_of_pc_le hrun hpc, execWord_of_not_legal hillegal]
  simp [finishSlot, illegalFault]

end Sys2Proof.Machine

namespace Sys2Proof.Machine

/-! ## Jumps and skips (R141, R143 to R147, R149)

Every jump is a checked write of the program counter and every skip a conditional one, so each needs its target or its
condition, and shares the frame of `setPc`. -/

theorem State.setPc_unchangedBut (s : State) (w : Word) : UnchangedBut [.pc] s (s.setPc w) := by
  intro p hp
  cases p
  case pc => simp at hp
  all_goals rfl

theorem State.skipIf_unchangedBut (s : State) (c : Bool) : UnchangedBut [.pc] s (s.skipIf c) := by
  cases c
  case false => exact fun p _ => by cases p <;> rfl
  case true => exact s.setPc_unchangedBut (s.pc + 2)

/-- An instruction that skips on `c` moves the program counter on exactly when the condition `c` tests holds. -/
theorem exec_skip {i : Instr} {s : State} {c : Bool} {p : Prop} [Decidable p] (hexec : exec i s = .next (s.skipIf c))
    (hc : c = true ↔ p) :
    ∃ t, exec i s = .next t ∧ t.pc = (if p then s.pc + 2 else s.pc) ∧ UnchangedBut [.pc] s t :=
  ⟨_, hexec, by simp only [State.skipIf_pc, hc], s.skipIf_unchangedBut c⟩

/-- An instruction that jumps to `w` after `CheckTarget` (R148) completes there when `w` is in the program area. -/
theorem exec_checked_jump {i : Instr} {s : State} {a : Nat} {w : Word}
    (hexec : exec i s = guarded i (checkTarget a) s (s.setPc w)) (hw : w.toNat = a) (hlo : 512 ≤ a) (hhi : a ≤ 4095) :
    ∃ t, exec i s = .next t ∧ t.pc.toNat = a ∧ UnchangedBut [.pc] s t := by
  rw [checkTarget_none_iff.mpr ⟨hlo, hhi⟩, guarded_none] at hexec
  exact ⟨_, hexec, hw, s.setPc_unchangedBut w⟩

/-- Settles O20: each of the four is a skip, on a Boolean test of its condition. -/
theorem registerSkips : Obligations.RegisterSkips := by
  unfold Obligations.RegisterSkips
  intro x y nn s
  exact ⟨exec_skip rfl beq_iff_eq, exec_skip rfl bne_iff_ne, exec_skip rfl beq_iff_eq, exec_skip rfl bne_iff_ne⟩

/-- Settles O21: a 12-bit target is at most 4095, and widening it keeps its value. -/
theorem jumpSetsPc : Obligations.JumpSetsPc := by
  unfold Obligations.JumpSetsPc
  intro n s hlo
  have hhi : n.toNat ≤ 4095 := by omega
  have hw : (n.setWidth 16).toNat = n.toNat := BitVec.toNat_setWidth_of_le (by decide)
  exact exec_checked_jump rfl hw hlo hhi

/-- Settles O24: a sum in the program area fits the program counter. -/
theorem jumpAddsV0 : Obligations.JumpAddsV0 := by
  unfold Obligations.JumpAddsV0
  intro n s hlo hhi
  have hw : (BitVec.ofNat 16 (s.indexedTarget n)).toNat = s.indexedTarget n :=
    Nat.mod_eq_of_lt (by simp only [State.indexedTarget]; omega)
  exact exec_checked_jump rfl hw hlo hhi

end Sys2Proof.Machine

namespace Sys2Proof.Machine

/-! ## Load, arithmetic, logic and shift (R160 to R170)

None of these instructions can fault. Each completes with a register write, or with a result write and then the flag write
of R172, so each needs its result byte and its flag byte, and shares the frame of the two updates. -/

theorem State.setReg_unchangedBut (s : State) (x : Reg) (b : Byte) : UnchangedBut [.reg x] s (s.setReg x b) := by
  intro p hp
  cases p
  case reg q => exact s.reg_setReg_other x q b (by rintro rfl; simp at hp)
  all_goals rfl

theorem State.setResultFlag_unchangedBut (s : State) (x : Reg) (r : Byte) (f : Bool) :
    UnchangedBut [.reg x, .reg VF] s (s.setResultFlag x r f) := by
  intro p hp
  obtain ⟨hx, hvf⟩ : p ∉ [Part.reg x] ∧ p ∉ [Part.reg VF] := by simpa using hp
  have hresult := s.setReg_unchangedBut x r p hx
  have hflag := (s.setReg x r).setReg_unchangedBut VF (flagByte f) p hvf
  cases p <;> exact hflag.trans hresult

/-- An instruction that is one register write completes with that register alone changed. -/
theorem exec_setReg {i : Instr} {s : State} {x : Reg} {b : Byte} (hexec : exec i s = .next (s.setReg x b)) :
    ∃ t, exec i s = .next t ∧ t.reg x = b ∧ UnchangedBut [.reg x] s t :=
  ⟨_, hexec, s.reg_setReg_same x b, s.setReg_unchangedBut x b⟩

/-- An instruction that writes a result and then the flag completes with both in place; the flag is what stays when they
share a register (decision D7). -/
theorem exec_setResultFlag {i : Instr} {s : State} {x : Reg} {r : Byte} {f : Bool}
    (hexec : exec i s = .next (s.setResultFlag x r f)) :
    ∃ t, exec i s = .next t ∧ (x ≠ VF → t.reg x = r) ∧ t.reg VF = flagByte f ∧ UnchangedBut [.reg x, .reg VF] s t := by
  refine ⟨_, hexec, fun hx => ?_, ?_, s.setResultFlag_unchangedBut x r f⟩
  · simp [State.reg_setResultFlag, hx]
  · simp [State.reg_setResultFlag]

/-! ### Result and flag bytes as numbers (R166 to R170, R173) -/

theorem flagByte_carryOf (a b : Byte) : flagByte (carryOf a b) = if 255 < a.toNat + b.toNat then 1 else 0 := by
  simp only [flagByte, carryOf, decide_eq_true_eq]

theorem flagByte_noBorrow (a b : Byte) : flagByte (noBorrow a b) = if b.toNat ≤ a.toNat then 1 else 0 := by
  simp only [flagByte, noBorrow, decide_eq_true_eq]

theorem toNat_flagByte (f : Bool) : (flagByte f).toNat = f.toNat := by
  cases f <;> rfl

theorem toNat_flagByte_shiftedOutRight (v : Byte) : (flagByte (shiftedOutRight v)).toNat = v.toNat % 2 := by
  rw [toNat_flagByte, shiftedOutRight, BitVec.getLsbD, Nat.toNat_testBit, pow_zero, Nat.div_one]

/-- Above bit 7 a byte has nothing, so what a division by 128 leaves is that one bit. -/
theorem toNat_flagByte_shiftedOutLeft (v : Byte) : (flagByte (shiftedOutLeft v)).toNat = v.toNat / 128 := by
  rw [toNat_flagByte, shiftedOutLeft, BitVec.getLsbD, Nat.toNat_testBit]
  have hlt := v.isLt
  omega

theorem toNat_sub_byte (a b : Byte) : (a - b).toNat = (a.toNat + 256 - b.toNat) % 256 := by
  rw [BitVec.toNat_sub]
  have hlt := b.isLt
  omega

theorem toNat_shiftRight_one (v : Byte) : (v >>> 1).toNat = v.toNat / 2 := by
  rw [BitVec.toNat_ushiftRight, Nat.shiftRight_one]

theorem toNat_shiftLeft_one (v : Byte) : (v <<< 1).toNat = v.toNat * 2 % 256 := by
  rw [BitVec.toNat_shiftLeft, Nat.shiftLeft_eq, pow_one]

/-- An instruction that subtracts and keeps "no borrow" completes with the difference modulo 256 and that flag. -/
theorem exec_subtract {i : Instr} {s : State} {x : Reg} {a b : Byte}
    (hexec : exec i s = .next (s.setResultFlag x (a - b) (noBorrow a b))) :
    ∃ t, exec i s = .next t ∧ (x ≠ VF → (t.reg x).toNat = (a.toNat + 256 - b.toNat) % 256) ∧
      t.reg VF = (if b.toNat ≤ a.toNat then 1 else 0) ∧ UnchangedBut [.reg x, .reg VF] s t := by
  obtain ⟨t, hnext, hresult, hflag, hframe⟩ := exec_setResultFlag hexec
  exact ⟨t, hnext, fun hx => by rw [hresult hx, toNat_sub_byte], hflag.trans (flagByte_noBorrow a b), hframe⟩

/-! ### The instructions -/

/-- Settles O12: each is one register write, and a byte sum is the sum modulo 256. -/
theorem immediateLoadAndAdd : Obligations.ImmediateLoadAndAdd := by
  unfold Obligations.ImmediateLoadAndAdd
  intro x nn s
  obtain ⟨t, hnext, hsum, hframe⟩ := exec_setReg (i := .addImm x nn) (s := s) rfl
  exact ⟨exec_setReg rfl, t, hnext, by rw [hsum, BitVec.toNat_add], hframe⟩

/-- Settles O13: the copy is one register write. -/
theorem registerCopy : Obligations.RegisterCopy := by
  unfold Obligations.RegisterCopy
  intro x y s
  exact exec_setReg rfl

/-- Settles O14: the three write their result and then a flag that is always 0. -/
theorem logicClearsFlag : Obligations.LogicClearsFlag := by
  unfold Obligations.LogicClearsFlag
  intro x y s
  exact ⟨exec_setResultFlag (f := false) rfl, exec_setResultFlag (f := false) rfl, exec_setResultFlag (f := false) rfl⟩

/-- Settles O15: result and carry are both taken from the old operands. -/
theorem addSetsCarry : Obligations.AddSetsCarry := by
  unfold Obligations.AddSetsCarry
  intro x y s
  obtain ⟨t, hnext, hsum, hcarry, hframe⟩ := exec_setResultFlag (i := .addReg x y) (s := s) rfl
  exact ⟨t, hnext, fun hx => by rw [hsum hx, BitVec.toNat_add], hcarry.trans (flagByte_carryOf _ _), hframe⟩

/-- Settles O16: the two differ in which operand is the minuend. -/
theorem subtractSetsNoBorrow : Obligations.SubtractSetsNoBorrow := by
  unfold Obligations.SubtractSetsNoBorrow
  intro x y s
  exact ⟨exec_subtract rfl, exec_subtract rfl⟩

/-- Settles O17: `v` is the model's `shiftSource`; halving loses bit 0, doubling loses bit 7. -/
theorem shiftsMoveOneBit : Obligations.ShiftsMoveOneBit := by
  unfold Obligations.ShiftsMoveOneBit
  intro x y s v hv
  obtain rfl : v = s.shiftSource x y := hv
  constructor
  · obtain ⟨t, hnext, hhalf, hbit, hframe⟩ := exec_setResultFlag (i := .shr x y) (s := s) rfl
    exact ⟨t, hnext, fun hx => by rw [hhalf hx, toNat_shiftRight_one],
      by rw [hbit, toNat_flagByte_shiftedOutRight], hframe⟩
  · obtain ⟨t, hnext, hdouble, hbit, hframe⟩ := exec_setResultFlag (i := .shl x y) (s := s) rfl
    exact ⟨t, hnext, fun hx => by rw [hdouble hx, toNat_shiftLeft_one],
      by rw [hbit, toNat_flagByte_shiftedOutLeft], hframe⟩

end Sys2Proof.Machine

namespace Sys2Proof.Machine

/-! ## Index register and memory (R190, R193 to R197)

Each of these instructions is made of one or two of four updates: a write of the index register, a run of bytes stored, a
run of bytes loaded, and the legacy increment. Each update has its frame, and the frames of two updates in a row add up. -/

theorem Part.same_trans {p : Part} {s t u : State} (h : p.same s t) (k : p.same t u) : p.same s u := by
  cases p <;> exact Eq.trans k h

theorem UnchangedBut.trans {ps qs : List Part} {s t u : State} (h : UnchangedBut ps s t) (k : UnchangedBut qs t u) :
    UnchangedBut (qs ++ ps) s u := by
  intro p hp
  obtain ⟨hq, hp⟩ := not_or.mp (mt List.mem_append.mpr hp)
  exact Part.same_trans (h p hp) (k p hq)

theorem State.setI_unchangedBut (s : State) (w : Word) : UnchangedBut [.index] s (s.setI w) := by
  intro p hp
  cases p
  case index => simp at hp
  all_goals rfl

theorem State.legacyAdvance_unchangedBut (s : State) (x : Reg) : UnchangedBut [.index] s (s.legacyAdvance x) := by
  unfold State.legacyAdvance
  split
  · exact s.setI_unchangedBut _
  · exact fun p _ => by cases p <;> rfl

/-- R197: the increment that ends FX55 and FX65 adds `I` to what the transfer changed. -/
theorem UnchangedBut.legacyAdvance {ps : List Part} {s t : State} (h : UnchangedBut ps s t) (x : Reg) :
    UnchangedBut (.index :: ps) s (t.legacyAdvance x) :=
  h.trans (t.legacyAdvance_unchangedBut x)

theorem State.storeRun_unchangedBut (s : State) (a : Nat) (bs : List Byte) :
    UnchangedBut (byteParts a bs.length) s (s.storeRun a bs) := by
  intro p hp
  cases p
  case byte b =>
    rw [mem_byteParts] at hp
    exact Memory.byte_writeList_outside s.mem a b bs (by omega)
  all_goals rfl

theorem State.loadRegs_unchangedBut (s : State) (a : Nat) (x : Reg) :
    UnchangedBut (regPartsUpTo x) s (s.loadRegs a x) := by
  intro p hp
  cases p
  case reg r =>
    have hr : ¬ r ≤ x := fun hle => hp (mem_regPartsUpTo.mpr ⟨r, hle, rfl⟩)
    exact (s.reg_loadRegs a x r).trans (if_neg hr)
  all_goals simp [Part.same]

/-- R197: a run that ends inside memory leaves room for the increment, so it does not wrap. -/
theorem State.toNat_legacyAdvance_i {s t : State} {x : Reg} (hi : t.i = s.i) (hlegacy : t.legacy = s.legacy)
    (hhi : s.i.toNat + x.val ≤ 4095) :
    (t.legacyAdvance x).i.toNat = if s.legacy then s.i.toNat + x.val + 1 else s.i.toNat := by
  rw [State.legacyAdvance_i, hi, hlegacy]
  split
  · rw [BitVec.toNat_add, BitVec.toNat_ofNat]
    omega
  · rfl

/-! ### When the three transfers complete -/

theorem exec_ldB_of_room {x : Reg} {s : State} (hlo : 80 ≤ s.i.toNat) (hhi : s.i.toNat + 2 ≤ 4095) :
    exec (.ldB x) s = .next (s.storeRun (s.ea 0) (bcdDigits (s.reg x))) :=
  guarded_next_iff.mpr ⟨(writeRunCheck_none_iff (by omega)).mpr ⟨hlo, Nat.succ_le_succ hhi⟩, rfl⟩

theorem exec_ldMemVx_of_room {x : Reg} {s : State} (hlo : 80 ≤ s.i.toNat) (hhi : s.i.toNat + x.val ≤ 4095) :
    exec (.ldMemVx x) s = .next ((s.storeRun (s.ea 0) (s.regsUpTo x)).legacyAdvance x) :=
  guarded_next_iff.mpr ⟨(writeRunCheck_none_iff (by omega)).mpr ⟨hlo, Nat.succ_le_succ hhi⟩, rfl⟩

theorem exec_ldVxMem_of_room {x : Reg} {s : State} (hhi : s.i.toNat + x.val ≤ 4095) :
    exec (.ldVxMem x) s = .next ((s.loadRegs (s.ea 0) x).legacyAdvance x) :=
  guarded_next_iff.mpr ⟨runCheck_none_iff.mpr (.inr (Nat.succ_le_succ hhi)), rfl⟩

/-! ### The instructions -/

/-- Settles O27: a 12-bit value fits the index register. -/
theorem loadIndexImmediate : Obligations.LoadIndexImmediate := by
  unfold Obligations.LoadIndexImmediate
  intro n s
  exact ⟨_, rfl, BitVec.toNat_setWidth_of_le (by decide), s.setI_unchangedBut _⟩

/-- Settles O30: the bytes of the run are the three digits, and a digit fits a byte. -/
theorem digitsAreStored : Obligations.DigitsAreStored := by
  unfold Obligations.DigitsAreStored
  intro x s hlo hhi
  have hdigit (k : Nat) (hk : k < 3) :
      (s.storeRun (s.ea 0) (bcdDigits (s.reg x))).mem.byte (s.ea k) = (bcdDigits (s.reg x))[k] :=
    Memory.byte_writeList_inside s.mem (s.ea 0) (bcdDigits (s.reg x)) k hk
  refine ⟨_, exec_ldB_of_room hlo hhi, ?_, ?_, ?_, s.storeRun_unchangedBut _ (bcdDigits (s.reg x))⟩
  · rw [hdigit 0 (by decide)]
    exact Nat.mod_eq_of_lt (by omega)
  · rw [hdigit 1 (by decide)]
    exact Nat.mod_eq_of_lt (by omega)
  · rw [hdigit 2 (by decide)]
    exact Nat.mod_eq_of_lt (by omega)

/-- Settles O31: register `r` is byte `r` of the run, and the increment writes no memory. -/
theorem registersAreStored : Obligations.RegistersAreStored := by
  unfold Obligations.RegistersAreStored
  intro x s hlo hhi
  refine ⟨_, exec_ldMemVx_of_room hlo hhi, fun r hr => ?_, State.toNat_legacyAdvance_i rfl rfl hhi, ?_⟩
  · have hlt : r.val < (s.regsUpTo x).length := by
      rw [length_regsUpTo]
      exact Nat.lt_succ_of_le hr
    rw [State.legacyAdvance_mem, State.storeRun_mem]
    exact (Memory.byte_writeList_inside s.mem (s.ea 0) _ r.val hlt).trans (getElem_regsUpTo s x r.val hlt)
  · rw [← length_regsUpTo s x]
    exact (s.storeRun_unchangedBut _ _).legacyAdvance x

/-- Settles O32: a load has no lower limit, and the increment writes no register. -/
theorem registersAreLoaded : Obligations.RegistersAreLoaded := by
  unfold Obligations.RegistersAreLoaded
  intro x s hhi
  refine ⟨_, exec_ldVxMem_of_room hhi, fun r hr => ?_,
    State.toNat_legacyAdvance_i (s.loadRegs_i _ x) (s.loadRegs_legacy _ x) hhi,
    (s.loadRegs_unchangedBut _ x).legacyAdvance x⟩
  rw [State.reg_legacyAdvance]
  exact (s.reg_loadRegs (s.ea 0) x r).trans (if_pos hr)

end Sys2Proof.Machine

namespace Sys2Proof.Machine

/-! ## Display (R210 to R213)

Both instructions repaint the screen and mark it dirty, and DXYN writes the flag too, so they share one frame. What
`drawRows` does to a pixel and to the flag is known for a run of sprite bytes; here the run is read from memory at `I`. -/

theorem FrameBuffer.pixel_blank (y x : Nat) : FrameBuffer.pixel (Vector.replicate 32 0) y x = false := by
  unfold FrameBuffer.pixel
  split
  · rw [Vector.getElem_replicate]
    exact BitVec.getMsbD_zero
  · rfl

theorem State.paint_unchangedBut (s : State) (fb : FrameBuffer) (d : Bool) :
    UnchangedBut [.screen, .dirty] s { s with fb := fb, dirty := d } := by
  intro p hp
  cases p
  case screen | dirty => simp at hp
  all_goals rfl

/-- A drawn sprite is a repaint and a write of the flag. -/
theorem State.drawSprite_unchangedBut (s : State) (x y : Reg) (n : BitVec 4) :
    UnchangedBut [.reg VF, .screen, .dirty] s (s.drawSprite x y n) :=
  (s.paint_unchangedBut _ true).trans (State.setReg_unchangedBut _ VF _)

/-! ### The sprite in memory -/

theorem Memory.getElem?_bytes (m : Memory) (a k j : Nat) :
    (m.bytes a k)[j]? = if j < k then some (m.byte (a + j)) else none := by
  split
  next hj =>
    have hlt : j < (m.bytes a k).length := by rwa [Memory.length_bytes]
    rw [List.getElem?_eq_getElem hlt, Memory.getElem_bytes]
  next hj => exact List.getElem?_eq_none (by rw [Memory.length_bytes]; omega)

/-- R213 (decision D14): the left pixel of a sprite byte is bit 7. -/
theorem getMsbD_orientSprite (b : Byte) {k : Nat} (hk : k < 8) : (orientSprite b).getMsbD k = b.getLsbD (7 - k) := by
  simp [orientSprite, Config.spriteMsbLeft, BitVec.getMsbD, hk]

/-- A run of `k` bytes in memory has dots in a box of `k` rows and 8 columns only, each the bit of its row's byte. -/
theorem spriteDot_bytes (m : Memory) (a k x0 y0 row : Nat) {col : Nat} (hcol : col < 64) :
    spriteDot (m.bytes a k) x0 y0 row col =
      (decide (y0 ≤ row ∧ row < y0 + k ∧ x0 ≤ col ∧ col < x0 + 8) &&
        (m.byte (a + (row - y0))).getLsbD (7 - (col - x0))) := by
  unfold spriteDot
  rw [Memory.getElem?_bytes]
  by_cases hrows : y0 ≤ row ∧ row < y0 + k
  case pos =>
    rw [if_pos (by omega)]
    by_cases hcols : x0 ≤ col ∧ col < x0 + 8
    case pos => simp [hrows, hcols, hcol, getMsbD_orientSprite _ (show col - x0 < 8 by omega)]
    case neg => simp [hrows, hcols]
  case neg =>
    have hbox : ¬ (y0 ≤ row ∧ row < y0 + k ∧ x0 ≤ col ∧ col < x0 + 8) := fun ⟨htop, hbottom, _⟩ => hrows ⟨htop, hbottom⟩
    rw [decide_eq_false hbox]
    by_cases htop : y0 ≤ row
    case pos => simp [if_neg (show ¬ row - y0 < k by omega)]
    case neg => simp [htop]

/-- R211's drawn pixel is the dot of the `n` bytes at `I`. -/
theorem spriteDot_eq_spriteLit (s : State) (x y : Reg) (n : BitVec 4) (row : Nat) {col : Nat} (hcol : col < 64) :
    spriteDot (s.mem.bytes (s.ea 0) n.toNat) (s.spriteCol x) (s.spriteRow y) row col = spriteLit s x y n row col :=
  spriteDot_bytes s.mem (s.ea 0) n.toNat (s.spriteCol x) (s.spriteRow y) row hcol

/-! ### When DXYN completes, and what it draws -/

theorem exec_drw_of_room {x y : Reg} {n : BitVec 4} {s : State} (h : n.toNat = 0 ∨ s.i.toNat + n.toNat - 1 ≤ 4095) :
    exec (.drw x y n) s = .next (s.drawSprite x y n) :=
  guarded_next_iff.mpr ⟨runCheck_none_iff.mpr (by simp only [State.ea]; omega), rfl⟩

theorem State.pixel_drawSprite (s : State) (x y : Reg) (n : BitVec 4) {row col : Nat} (hrow : row < 32) (hcol : col < 64) :
    (s.drawSprite x y n).fb.pixel row col = (s.fb.pixel row col ^^ spriteLit s x y n row col) := by
  rw [State.drawSprite_fb, drawRows_pixel, spriteDot_eq_spriteLit s x y n row hcol, decide_eq_true hrow, Bool.true_and]

/-- R211: a sprite collides with a screen where both are lit. -/
def Collides (s : State) (x y : Reg) (n : BitVec 4) : Prop :=
  ∃ row col, row < 32 ∧ col < 64 ∧ s.fb.pixel row col = true ∧ spriteLit s x y n row col = true

theorem drawRows_hit_iff_collides (s : State) (x y : Reg) (n : BitVec 4) :
    (drawRows (s.spriteCol x) (s.mem.bytes (s.ea 0) n.toNat) (s.spriteRow y) s.fb false).2 = true ↔ Collides s x y n := by
  simp only [drawRows_hit, Bool.false_eq_true, false_or, Collides]
  refine exists_congr fun row => exists_congr fun col => and_congr_right fun _ => and_congr_right fun hcol => ?_
  rw [spriteDot_eq_spriteLit s x y n row hcol]

theorem State.reg_drawSprite_flag (s : State) (x y : Reg) (n : BitVec 4) [Decidable (Collides s x y n)] :
    (s.drawSprite x y n).reg VF = if Collides s x y n then 1 else 0 := by
  rw [State.reg_drawSprite, if_pos rfl]
  simp only [flagByte, drawRows_hit_iff_collides]

/-! ### The instructions -/

/-- Settles O36: the new screen is blank, and the instruction is one repaint. -/
theorem clearScreen : Obligations.ClearScreen := by
  unfold Obligations.ClearScreen
  intro s
  exact ⟨_, rfl, FrameBuffer.pixel_blank, rfl, s.paint_unchangedBut _ true⟩

/-- Settles O37: a run that fits memory, or an empty one, is drawn, and the flag says whether it collides. -/
theorem spriteIsXoredIn : Obligations.SpriteIsXoredIn := by
  unfold Obligations.SpriteIsXoredIn
  intro x y n s hroom
  refine ⟨_, exec_drw_of_room hroom, fun row col hrow hcol => s.pixel_drawSprite x y n hrow hcol, ?_, rfl,
    s.drawSprite_unchangedBut x y n⟩
  classical
  by_cases hcollides : Collides s x y n
  case pos => exact .inl ⟨by rw [s.reg_drawSprite_flag, if_pos hcollides], hcollides⟩
  case neg =>
    refine .inr ⟨by rw [s.reg_drawSprite_flag, if_neg hcollides], fun row col hrow hcol hlit => ?_⟩
    exact Bool.eq_false_iff.mpr fun hdrawn => hcollides ⟨row, col, hrow, hcol, hlit, hdrawn⟩

end Sys2Proof.Machine

namespace Sys2Proof.Machine

/-! ## Delay timer (R233, R234) -/

theorem State.setDelay_unchangedBut (s : State) (b : Byte) : UnchangedBut [.delay] s { s with dt := b } := by
  intro p hp
  cases p
  case delay => simp at hp
  all_goals rfl

/-- Settles O42: FX07 is one register write, FX15 one write of the timer. -/
theorem delayTimerReadAndWrite : Obligations.DelayTimerReadAndWrite := by
  unfold Obligations.DelayTimerReadAndWrite
  intro x s
  exact ⟨exec_setReg rfl, _, rfl, rfl, s.setDelay_unchangedBut _⟩

end Sys2Proof.Machine

namespace Sys2Proof.Machine

/-! ## The byte source (R171, R283) -/

theorem State.takeByte_unchangedBut (s : State) : UnchangedBut [.randQueue, .randDrawn] s s.takeByte := by
  intro p hp
  cases p
  case randQueue | randDrawn => simp at hp
  all_goals rfl

theorem State.nextByte_of_listed {s : State} {b : Byte} {rest : List Byte} (h : s.randQueue = b :: rest) :
    s.nextByte = b := by
  simp [State.nextByte, h]

/-- Settles O18: one byte is taken, then one register is written, and the frames of the two add up. -/
theorem randomTakesOneByte : Obligations.RandomTakesOneByte := by
  unfold Obligations.RandomTakesOneByte
  intro x nn s
  have hreg : (s.takeByte.setReg x (s.nextByte &&& nn)).reg x = s.nextByte &&& nn := State.reg_setReg_same _ _ _
  refine ⟨_, rfl, hreg, fun b rest h => ?_, rfl, rfl, ?_⟩
  · rw [hreg, State.nextByte_of_listed h]
  · exact s.takeByte_unchangedBut.trans (s.takeByte.setReg_unchangedBut x _)

end Sys2Proof.Machine

namespace Sys2Proof.Machine

/-! ## Fault entry and the terminal states (R31, R251, R254, R275)

A FAULTED machine and a STOPPED one are fixed points of `tick`; a running one enters its fault from the state phase 1 left. -/

theorem step_of_faulted {s : State} {r : FaultRecord} (h : s.runState = .faulted r) : step s = .fault (.raised r) := by
  simp [step, h]

theorem step_of_stopped {s : State} (h : s.runState = .stopped) : step s = .next s := by
  simp [step, h]

theorem tick_of_step_next {s t : State} (h : step s = .next t) : tick s = t := by
  simp [tick, h, stateAfter]

theorem tick_of_faulted {s : State} {r : FaultRecord} (h : s.runState = .faulted r) : tick s = s := by
  simp [tick, step_of_faulted h, stateAfter, h]

theorem tick_of_running_fault {s : State} {r : FaultRecord} (hrun : s.runState = .running)
    (h : step s = .fault (.raised r)) : tick s = (beginSlot s).enterFault r := by
  simp [tick, h, stateAfter, hrun]

theorem ticks_of_tick_eq {s : State} (h : tick s = s) (k : Nat) : ticks k s = s := by
  induction k with
  | zero => rfl
  | succ k ih => rw [ticks, h, ih]

theorem State.enterFault_unchangedBut (s : State) (r : FaultRecord) :
    UnchangedBut [.runState, .out] s (s.enterFault r) := by
  intro p hp
  cases p
  case runState | out => simp at hp
  all_goals rfl

/-- Settles O9: in both states a step changes nothing, so no number of them does. -/
theorem faultedAndStoppedStay : Obligations.FaultedAndStoppedStay := by
  unfold Obligations.FaultedAndStoppedStay
  constructor
  · intro s r k hfault
    exact ⟨step_of_faulted hfault, ticks_of_tick_eq (tick_of_faulted hfault) k⟩
  · intro s k hstop
    exact ⟨step_of_stopped hstop, ticks_of_tick_eq (tick_of_step_next (step_of_stopped hstop)) k⟩

/-- Settles O8: the fault is entered from the state phase 1 left, and phase 1 sends nothing. -/
theorem faultEntryWritesOnlyTheRecord : Obligations.FaultEntryWritesOnlyTheRecord := by
  unfold Obligations.FaultEntryWritesOnlyTheRecord
  intro s r hrun hfault
  obtain ⟨-, -, -, -, -, -, hout⟩ := beginSlot_control s
  rw [tick_of_running_fault hrun hfault]
  exact ⟨rfl, by rw [State.enterFault_out, hout], State.enterFault_unchangedBut _ r, step_of_faulted rfl⟩

end Sys2Proof.Machine

namespace Sys2Proof.Machine

/-! ## Phases 3 and 4 (R273, R274)

Phase 3 takes down one timer and then the other; each has its own value, output and frame. -/

theorem UnchangedBut.mono {ps qs : List Part} {s t : State} (h : UnchangedBut ps s t) (hsub : ps ⊆ qs) :
    UnchangedBut qs s t :=
  fun p hp => h p (mt (@hsub p) hp)

theorem toNat_sub_one_of_ne_zero {b : Byte} (h : b ≠ 0) : (b - 1).toNat = b.toNat - 1 := by
  bv_omega

theorem tickDelay_dt_toNat (s : State) : (tickDelay s).dt.toNat = s.dt.toNat - 1 := by
  unfold tickDelay
  split
  next h => simp [h]
  next h => exact toNat_sub_one_of_ne_zero h

theorem tickDelay_unchangedBut (s : State) : UnchangedBut [.delay] s (tickDelay s) := by
  unfold tickDelay
  split
  · exact fun p _ => by cases p <;> rfl
  · exact s.setDelay_unchangedBut _

theorem tickSound_st_toNat (s : State) : (tickSound s).st.toNat = s.st.toNat - 1 := by
  unfold tickSound
  split
  next h => simp [h]
  next hzero =>
    split
    next hone => simp [hone]
    next => exact toNat_sub_one_of_ne_zero hzero

theorem tickSound_of_one {s : State} (h : s.st = 1) : tickSound s = { s.stopTone with st := 0 } := by
  simp [tickSound, h]

theorem tickSound_silent {s : State} (h : s.st ≠ 1) :
    (tickSound s).tone = s.tone ∧ (tickSound s).out = s.out := by
  rw [tickSound, if_neg h]
  split <;> exact ⟨rfl, rfl⟩

theorem tickSound_unchangedBut (s : State) : UnchangedBut [.sound, .tone, .out] s (tickSound s) := by
  intro p hp
  unfold tickSound
  cases p
  case sound | tone | out => simp at hp
  all_goals split_ifs <;> rfl

theorem phaseTimers_dt_toNat (s : State) : (phaseTimers s).dt.toNat = s.dt.toNat - 1 := by
  have hkeep : (phaseTimers s).dt = (tickDelay s).dt := tickSound_unchangedBut (tickDelay s) .delay (by simp)
  rw [hkeep, tickDelay_dt_toNat]

/-- Settles O45: the delay timer's half of the phase touches neither the sound timer nor the tone. -/
theorem timerPhase : Obligations.TimerPhase := by
  unfold Obligations.TimerPhase
  intro s
  have hdelay := tickDelay_unchangedBut s
  have hst : (tickDelay s).st = s.st := hdelay .sound (by simp)
  have htone : (tickDelay s).tone = s.tone := hdelay .tone (by simp)
  have hout : (tickDelay s).out = s.out := hdelay .out (by simp)
  refine ⟨phaseTimers_dt_toNat s, ?_, fun hone => ?_, fun hne => ?_, ?_⟩
  · rw [phaseTimers, tickSound_st_toNat, hst]
  · rw [phaseTimers, tickSound_of_one (hst.trans hone)]
    exact ⟨rfl, by simp [hout]⟩
  · obtain ⟨htone', hout'⟩ := tickSound_silent (s := tickDelay s) (by rwa [hst])
    exact ⟨htone'.trans htone, hout'.trans hout⟩
  · exact (hdelay.trans (tickSound_unchangedBut (tickDelay s))).mono List.perm_append_comm.subset

theorem phaseDisplay_of_dirty {s : State} (h : s.dirty = true) :
    phaseDisplay s = { s.emit (.flush s.fb) with dirty := false } := by
  simp [phaseDisplay, h]

theorem phaseDisplay_of_clean {s : State} (h : s.dirty = false) : phaseDisplay s = s := by
  simp [phaseDisplay, h]

/-- Settles O46: the two branches of the phase. -/
theorem displayPhase : Obligations.DisplayPhase := by
  unfold Obligations.DisplayPhase
  refine fun s => ⟨fun hdirty => ?_, phaseDisplay_of_clean⟩
  rw [phaseDisplay_of_dirty hdirty]
  refine ⟨rfl, rfl, fun p hp => ?_⟩
  cases p
  case dirty | out => simp at hp
  all_goals rfl

end Sys2Proof.Machine

namespace Sys2Proof.Machine

/-! ## Which slot ends a frame (R33, R270, R272)

Phase 1 leaves a slot count of at most 9, the instruction keeps it, and the slot is the tenth exactly when it is 9. -/

theorem beginSlot_of_frameDue {s : State} (h : s.slot = 0 ∨ 10 ≤ s.slot) : beginSlot s = phaseInput s := by
  simp [beginSlot, State.frameDue, h]

theorem beginSlot_within_frame {s : State} (hlo : 0 < s.slot) (hhi : s.slot < 10) : beginSlot s = s := by
  have hne : s.slot ≠ 0 := by omega
  simp [beginSlot, State.frameDue, hne, hhi]

theorem beginSlot_slot_of_nine {s : State} (h : s.slot = 9) : (beginSlot s).slot = 9 := by
  rw [beginSlot_within_frame (by omega) (by omega), h]

theorem beginSlot_slot_lt_nine {s : State} (hle : s.slot ≤ 10) (hne : s.slot ≠ 9) : (beginSlot s).slot < 9 := by
  by_cases hdue : s.slot = 0 ∨ 10 ≤ s.slot
  · rw [beginSlot_of_frameDue hdue]
    exact Nat.zero_lt_succ 8
  · rw [beginSlot_within_frame (by omega) (by omega)]
    omega

/-- No instruction touches the control fields, and neither do fetch and decode. -/
theorem runInstr_sameControl {s t : State} (h : runInstr s = .next t) : SameControl s t := by
  obtain ⟨-, i, -, hexec⟩ := runInstr_next_cases h
  simpa [SameControl] using exec_sameControl hexec

theorem runInstr_slot {s t : State} (h : runInstr s = .next t) : t.slot = s.slot := by
  obtain ⟨-, -, hslot, -⟩ := runInstr_sameControl h
  exact hslot

theorem countSlot_dirty (s : State) : (countSlot s).dirty = s.dirty := rfl

theorem endSlot_of_nine {t : State} (h : t.slot = 9) : endSlot t = endFrame (countSlot t) := by
  simp [endSlot, h]

theorem endSlot_of_lt_nine {t : State} (h : t.slot < 9) : endSlot t = countSlot t := by
  rw [endSlot, if_neg (by simp only [Config.ipf]; omega)]

theorem endSlot_of_tenth_slot {s t : State} (hslot : s.slot = 9) (h : runInstr (beginSlot s) = .next t) :
    endSlot t = endFrame (countSlot t) :=
  endSlot_of_nine ((runInstr_slot h).trans (beginSlot_slot_of_nine hslot))

theorem endSlot_of_earlier_slot {s t : State} (hle : s.slot ≤ 10) (hne : s.slot ≠ 9)
    (h : runInstr (beginSlot s) = .next t) : endSlot t = countSlot t :=
  endSlot_of_lt_nine ((runInstr_slot h).trans_lt (beginSlot_slot_lt_nine hle hne))

theorem step_of_runInstr_next {s t : State} (hrun : s.runState = .running) (h : runInstr (beginSlot s) = .next t) :
    step s = .next (endSlot t) := by
  simp [step, hrun, h, finishSlot]

/-- Settles O47: the completed slot ends a frame exactly when the count it found was 9. -/
theorem tenthSlotEndsFrame : Obligations.TenthSlotEndsFrame := by
  unfold Obligations.TenthSlotEndsFrame
  intro s t hrun hle hinstr
  rw [step_of_runInstr_next hrun hinstr]
  constructor
  · intro hnine
    rw [endSlot_of_tenth_slot hnine hinstr, endFrame]
  · intro hne
    rw [endSlot_of_earlier_slot hle hne hinstr]

end Sys2Proof.Machine

namespace Sys2Proof.Machine

/-! ## Flushes (R274, R284)

An instruction and phase 3 send tone events alone, so the flushes of a slot are those of phase 4. -/

theorem flushCount_startTone (es : List OutEvent) : flushCount (.startTone :: es) = flushCount es :=
  List.countP_cons_of_neg (by simp)

theorem flushCount_stopTone (es : List OutEvent) : flushCount (.stopTone :: es) = flushCount es :=
  List.countP_cons_of_neg (by simp)

theorem flushCount_flush (fb : FrameBuffer) (es : List OutEvent) : flushCount (.flush fb :: es) = flushCount es + 1 :=
  List.countP_cons_of_pos rfl

theorem runInstr_flushCount {s t : State} (h : runInstr s = .next t) : flushCount t.out = flushCount s.out := by
  obtain ⟨-, i, -, hexec⟩ := runInstr_next_cases h
  obtain ⟨-, -, hout⟩ | ⟨-, -, hout | hout⟩ := exec_sound hexec
  · rw [hout, State.setPc_out]
  · rw [hout, State.setPc_out]
  · rw [hout, flushCount_startTone, State.setPc_out]

theorem phaseTimers_flushCount (s : State) : flushCount (phaseTimers s).out = flushCount s.out := by
  obtain ⟨-, -, htone, hsilent, -⟩ := timerPhase s
  by_cases hone : s.st = 1
  · rw [(htone hone).2, flushCount_stopTone]
  · rw [(hsilent hone).2]

theorem phaseDisplay_flushCount (s : State) :
    flushCount (phaseDisplay s).out = flushCount s.out + (if s.dirty = true then 1 else 0) := by
  cases hdirty : s.dirty
  case false => rw [phaseDisplay_of_clean hdirty]; simp
  case true => rw [phaseDisplay_of_dirty hdirty, State.emit_out, flushCount_flush, if_pos rfl]

theorem endFrame_flushCount (s : State) :
    flushCount (endFrame s).out = flushCount s.out + (if s.dirty = true then 1 else 0) := by
  obtain ⟨-, -, -, -, hdirty, -⟩ := phaseTimers_control s
  calc flushCount (endFrame s).out
      = flushCount (phaseDisplay (phaseTimers s)).out := rfl
    _ = flushCount s.out + (if s.dirty = true then 1 else 0) := by
      rw [phaseDisplay_flushCount, phaseTimers_flushCount, hdirty]

/-- Settles O58: only the end of a frame flushes, and only the tenth slot ends one. -/
theorem flushOnlyAtFrameEnd : Obligations.FlushOnlyAtFrameEnd := by
  unfold Obligations.FlushOnlyAtFrameEnd
  intro s t u hrun hle hinstr hstep
  obtain rfl : endSlot t = u := Host.Outcome.next.inj ((step_of_runInstr_next hrun hinstr).symm.trans hstep)
  obtain ⟨-, -, -, -, -, -, hbegin⟩ := beginSlot_control s
  have hcount : flushCount (countSlot t).out = flushCount s.out := (runInstr_flushCount hinstr).trans (by rw [hbegin])
  by_cases hnine : s.slot = 9
  · rw [endSlot_of_tenth_slot hnine hinstr, endFrame_flushCount, hcount, countSlot_dirty]
    simp [hnine]
  · rw [endSlot_of_earlier_slot hle hnine hinstr, hcount]
    simp [hnine]

end Sys2Proof.Machine

namespace Sys2Proof.Machine

/-! ## A whole frame (R270, R272, R275, R276)

`InFrame s₀ n s` is what the slots of the frame opened at `s₀` keep up to its tenth. It holds of what phase 1 leaves of `s₀`,
with `n = 0`, and each slot that completes before the tenth raises `n` by one. -/

/-- `n` slots of the frame that opens at `s₀` have run, and the frame goes on: the machine runs, phase 1 has latched the keys
of the frame's host record, and the record is not used up yet. -/
structure InFrame (s₀ : State) (n : Nat) (s : State) : Prop where
  running : s.runState = .running
  slot : s.slot = n
  keysHeld : s.keysHeld = s₀.hostNow.keysHeld
  hostQueue : s.hostQueue = s₀.hostQueue
  hostIdle : s.hostIdle = s₀.hostIdle

theorem InFrame.hostNow {s₀ s : State} {n : Nat} (h : InFrame s₀ n s) : s.hostNow = s₀.hostNow := by
  simp only [State.hostNow, h.hostQueue, h.hostIdle]

theorem inFrame_phaseInput {s : State} (hrun : s.runState = .running) : InFrame s 0 (phaseInput s) :=
  ⟨hrun, rfl, rfl, rfl, rfl⟩

theorem inFrame_beginSlot {s₀ s : State} {n : Nat} (h : InFrame s₀ n s) (hlo : 0 < n) (hhi : n < 10) :
    InFrame s₀ n (beginSlot s) := by
  rwa [beginSlot_within_frame (by rwa [h.slot]) (by rwa [h.slot])]

theorem inFrame_countSlot {s₀ s : State} {n : Nat} (h : InFrame s₀ n s) : InFrame s₀ (n + 1) (countSlot s) :=
  ⟨h.running, congrArg (· + 1) h.slot, h.keysHeld, h.hostQueue, h.hostIdle⟩

theorem inFrame_runInstr {s₀ s t : State} {n : Nat} (h : InFrame s₀ n s) (hinstr : runInstr s = .next t) :
    InFrame s₀ n t := by
  obtain ⟨-, hrun, hslot, hkeys, hqueue, hidle⟩ := runInstr_sameControl hinstr
  exact ⟨hrun.trans h.running, hslot.trans h.slot, hkeys.trans h.keysHeld, hqueue.trans h.hostQueue,
    hidle.trans h.hostIdle⟩

theorem ticks_succ (k : Nat) (s : State) : ticks (k + 1) s = tick (ticks k s) := by
  induction k generalizing s with
  | zero => rfl
  | succ k ih => exact ih (tick s)

theorem State.faultRecord?_of_faulted {s : State} {r : FaultRecord} (h : s.runState = .faulted r) :
    s.faultRecord? = some r := by
  simp [State.faultRecord?, h]

/-- A fault is never left (R254). -/
theorem faultRecord?_of_tick {s : State} (h : (tick s).faultRecord? = none) : s.faultRecord? = none := by
  cases hrun : s.runState with
  | faulted r => rwa [tick_of_faulted hrun] at h
  | running | stopped => simp [State.faultRecord?, hrun]

/-- The slot of a running machine completes unless it faults. -/
theorem exists_endSlot_of_tick {s : State} (hrun : s.runState = .running) (h : (tick s).faultRecord? = none) :
    ∃ t, runInstr (beginSlot s) = .next t ∧ tick s = endSlot t := by
  cases hstep : step s with
  | next u =>
    obtain ⟨hstop, -⟩ | ⟨-, t, hinstr, rfl⟩ := step_next_cases hstep
    · simp [hrun] at hstop
    · exact ⟨t, hinstr, tick_of_step_next hstep⟩
  | fault f =>
    obtain ⟨r⟩ := f
    rw [tick_of_running_fault hrun hstep, State.faultRecord?_of_faulted rfl] at h
    simp at h
  | refused r => exact absurd hstep (step_not_refused s r)

/-- A slot before the tenth, seen from what phase 1 left. -/
theorem inFrame_tick {s₀ s : State} {n : Nat} (h : InFrame s₀ n (beginSlot s)) (hn : n < 9)
    (hok : (tick s).faultRecord? = none) : InFrame s₀ (n + 1) (tick s) := by
  obtain ⟨-, -, -, hbegin, -⟩ := beginSlot_control s
  obtain ⟨t, hinstr, htick⟩ := exists_endSlot_of_tick (hbegin.symm.trans h.running) hok
  have ht : InFrame s₀ n t := inFrame_runInstr h hinstr
  rw [htick, endSlot_of_lt_nine (by rwa [ht.slot])]
  exact inFrame_countSlot ht

/-- The first nine slots of a frame. -/
theorem inFrame_ticks {s : State} (hrun : s.runState = .running) (hslot : s.slot = 0 ∨ s.slot = 10) {k : Nat}
    (hk : k < 9) (hok : (ticks (k + 1) s).faultRecord? = none) : InFrame s (k + 1) (ticks (k + 1) s) := by
  induction k with
  | zero =>
    have hopen : InFrame s 0 (beginSlot s) := by
      rw [beginSlot_of_frameDue (by omega)]
      exact inFrame_phaseInput hrun
    exact inFrame_tick hopen (by omega) hok
  | succ k ih =>
    rw [ticks_succ] at hok ⊢
    have hprev : InFrame s (k + 1) (ticks (k + 1) s) := ih (by omega) (faultRecord?_of_tick hok)
    exact inFrame_tick (inFrame_beginSlot hprev (by omega) (by omega)) (by omega) hok

/-- Settles O52: nine slots keep `InFrame`, and the tenth is followed by the end of the frame. -/
theorem frameRunsTenSlots : Obligations.FrameRunsTenSlots := by
  unfold Obligations.FrameRunsTenSlots
  intro s hrun hslot hok
  have hframe : frame s = tick (ticks 9 s) := ticks_succ 9 s
  rw [hframe] at hok ⊢
  have hnine : InFrame s 9 (ticks 9 s) := inFrame_ticks hrun hslot (k := 8) (by omega) (faultRecord?_of_tick hok)
  obtain ⟨t, hinstr, htick⟩ := exists_endSlot_of_tick hnine.running hok
  have hten : InFrame s 10 (countSlot t) :=
    inFrame_countSlot (inFrame_runInstr (inFrame_beginSlot hnine (by omega) (by omega)) hinstr)
  obtain ⟨hcount, hstate, hqueue, hdirty, hkeys, -⟩ := endFrame_control (countSlot t)
  rw [htick, endSlot_of_tenth_slot hnine.slot hinstr]
  refine ⟨hcount.trans hten.slot, hdirty, hkeys.trans hten.keysHeld, hqueue.trans ?_, hstate.trans ?_⟩
  · rw [hten.hostQueue]
  · rw [hten.hostNow, hten.running]

end Sys2Proof.Machine

namespace Sys2Proof.Machine

/-! ## What each instruction writes (the per-instruction effects of R140 to R235)

`writes s i` lists the parts of the state instruction `i` may change when it runs at `s`. That it changes no other part is
proved once; what a statement says an instruction leaves alone is then read off its row. -/

/-- The parts of the state an instruction may change. -/
def writes (s : State) : Instr → List Part
  | .cls => [.screen, .dirty]
  | .ret | .call _ => [.pc, .stack]
  | .jp _ | .jpV0 _ | .seImm _ _ | .sneImm _ _ | .seReg _ _ | .sneReg _ _ | .skp _ | .sknp _ => [.pc]
  | .ldImm x _ | .addImm x _ | .ldReg x _ | .ldVxDT x => [.reg x]
  | .orReg x _ | .andReg x _ | .xorReg x _ | .addReg x _ | .subReg x _ | .shr x _ | .subn x _ | .shl x _ =>
    [.reg x, .reg VF]
  | .ldI _ | .addI _ | .ldF _ => [.index]
  | .rnd x _ => [.reg x, .randQueue, .randDrawn]
  | .drw _ _ _ => [.reg VF, .screen, .dirty]
  | .ldVxK x => [.reg x, .keyEvent, .pc]
  | .ldDTVx _ => [.delay]
  | .ldSTVx _ => [.sound, .tone, .out]
  | .ldB _ => byteParts (s.ea 0) 3
  | .ldMemVx x => .index :: byteParts (s.ea 0) (x.val + 1)
  | .ldVxMem x => .index :: regPartsUpTo x

/-! ### When a checked instruction completes, and with what -/

theorem exec_ret_next_iff {s t : State} :
    exec .ret s = .next t ↔ ∃ a rest, s.stack = a :: rest ∧ { s with stack := rest, pc := a } = t := by
  simp only [exec, execRet]
  split
  next h => simp [h, raise]
  next a rest h => simp [h]

theorem exec_call_next_iff {n : BitVec 12} {s t : State} :
    exec (.call n) s = .next t ↔ (512 ≤ n.toNat ∧ s.sp < 12) ∧ (s.push s.pc).setPc (n.setWidth 16) = t := by
  have hle : n.toNat ≤ 4095 := by omega
  refine guarded_next_iff.trans (and_congr_left fun _ => ?_)
  rw [Option.or_eq_none_iff, checkTarget_none_iff, pushCheck_none_iff, and_iff_left hle]

/-! ### The frame of every instruction -/

/-- A guarded effect that completes changes what its effect changes. -/
theorem unchangedBut_of_guarded {i : Instr} {c : Option Problem} {ps : List Part} {s t u : State}
    (h : guarded i c s t = .next u) (ht : UnchangedBut ps s t) : UnchangedBut ps s u := by
  obtain ⟨-, rfl⟩ := guarded_next_iff.mp h
  exact ht

theorem State.return_unchangedBut (s : State) (rest : List Word) (a : Word) :
    UnchangedBut [.pc, .stack] s { s with stack := rest, pc := a } := by
  intro p hp
  cases p
  case pc | stack => simp at hp
  all_goals rfl

theorem State.push_unchangedBut (s : State) (w : Word) : UnchangedBut [.stack] s (s.push w) := by
  intro p hp
  cases p
  case stack => simp at hp
  all_goals rfl

theorem State.clearKeyEvent_unchangedBut (s : State) : UnchangedBut [.keyEvent] s { s with keyEvent := none } := by
  intro p hp
  cases p
  case keyEvent => simp at hp
  all_goals rfl

theorem State.takeKey_of_some {s : State} {k : Key} (h : s.keyEvent = some k) (x : Reg) :
    s.takeKey x = { s.setReg x (BitVec.ofNat 8 k.val) with keyEvent := none } := by
  simp [State.takeKey, h]

theorem State.takeKey_of_none {s : State} (h : s.keyEvent = none) (x : Reg) : s.takeKey x = s.setPc (s.pc - 2) := by
  simp [State.takeKey, h]

theorem State.takeKey_unchangedBut_of_some {s : State} {k : Key} (h : s.keyEvent = some k) (x : Reg) :
    UnchangedBut [.reg x, .keyEvent] s (s.takeKey x) := by
  rw [State.takeKey_of_some h]
  exact ((s.setReg_unchangedBut x _).trans (State.clearKeyEvent_unchangedBut _)).mono List.perm_append_comm.subset

theorem State.takeKey_unchangedBut (s : State) (x : Reg) : UnchangedBut [.reg x, .keyEvent, .pc] s (s.takeKey x) := by
  cases h : s.keyEvent with
  | some k => exact (State.takeKey_unchangedBut_of_some h x).mono (by simp)
  | none =>
    rw [State.takeKey_of_none h]
    exact (s.setPc_unchangedBut _).mono (by simp)

/-- FX18's effect (R235). -/
theorem State.setSound_unchangedBut (s : State) (b : Byte) :
    UnchangedBut [.sound, .tone, .out] s (if b = 0 then { s with st := 0 } else { s.startTone with st := b }) := by
  intro p hp
  cases p
  case sound | tone | out => simp at hp
  all_goals split <;> rfl

/-- No instruction changes a part outside its row of `writes`. -/
theorem exec_unchangedBut {i : Instr} {s t : State} (h : exec i s = .next t) : UnchangedBut (writes s i) s t := by
  cases i
  case ret =>
    obtain ⟨a, rest, -, rfl⟩ := exec_ret_next_iff.mp h
    exact s.return_unchangedBut rest a
  case call => exact unchangedBut_of_guarded h ((s.push_unchangedBut _).trans (State.setPc_unchangedBut _ _))
  case jp | jpV0 => exact unchangedBut_of_guarded h (s.setPc_unchangedBut _)
  case skp | sknp => exact unchangedBut_of_guarded h (s.skipIf_unchangedBut _)
  case addI | ldF => exact unchangedBut_of_guarded h (s.setI_unchangedBut _)
  case drw x y n => exact unchangedBut_of_guarded h (s.drawSprite_unchangedBut x y n)
  case ldB x => exact unchangedBut_of_guarded h (s.storeRun_unchangedBut _ (bcdDigits (s.reg x)))
  case ldMemVx x =>
    have hrun := s.storeRun_unchangedBut (s.ea 0) (s.regsUpTo x)
    rw [length_regsUpTo] at hrun
    exact unchangedBut_of_guarded h (hrun.legacyAdvance x)
  case ldVxMem x => exact unchangedBut_of_guarded h ((s.loadRegs_unchangedBut _ x).legacyAdvance x)
  all_goals obtain rfl := Host.Outcome.next.inj h
  case cls => exact s.paint_unchangedBut _ true
  case seImm | sneImm | seReg | sneReg => exact s.skipIf_unchangedBut _
  case ldImm | addImm | ldReg | ldVxDT => exact s.setReg_unchangedBut _ _
  case orReg | andReg | xorReg | addReg | subReg | shr | subn | shl => exact s.setResultFlag_unchangedBut _ _ _
  case ldI => exact s.setI_unchangedBut _
  case rnd x nn => exact s.takeByte_unchangedBut.trans (s.takeByte.setReg_unchangedBut x _)
  case ldVxK x => exact s.takeKey_unchangedBut x
  case ldDTVx => exact s.setDelay_unchangedBut _
  case ldSTVx x => exact s.setSound_unchangedBut (s.reg x)

theorem mem_byteParts_iff {p : Part} {a k : Nat} : p ∈ byteParts a k ↔ ∃ b, (a ≤ b ∧ b < a + k) ∧ p = .byte b := by
  constructor
  · intro hp
    obtain ⟨off, hoff, rfl⟩ := List.mem_map.mp hp
    exact ⟨a + off, ⟨by omega, by simpa using hoff⟩, rfl⟩
  · rintro ⟨b, hb, rfl⟩
    exact mem_byteParts.mpr hb

end Sys2Proof.Machine

namespace Sys2Proof.Machine

/-! ## Memory, the call stack and the program counter under one instruction (R24, R26, R64, R79)

Where an instruction can store, what it can do to the stack, and where it can leave the program counter. -/

/-- R64: no instruction but FX33 and FX55 changes memory, as a list of cells. -/
theorem exec_mem {i : Instr} {s t : State} (hB : ∀ x, i ≠ .ldB x) (hM : ∀ x, i ≠ .ldMemVx x) (h : exec i s = .next t) :
    t.mem = s.mem := by
  cases i
  case ldB x => exact absurd rfl (hB x)
  case ldMemVx x => exact absurd rfl (hM x)
  case ret =>
    obtain ⟨a, rest, -, rfl⟩ := exec_ret_next_iff.mp h
    rfl
  case ldSTVx x =>
    obtain rfl := Host.Outcome.next.inj h
    split <;> rfl
  case jp | call | jpV0 | addI | ldF | ldVxMem | drw | skp | sknp =>
    obtain ⟨-, rfl⟩ := guarded_next_iff.mp h
    simp
  all_goals
    obtain rfl := Host.Outcome.next.inj h
    simp

theorem exec_ldB_next_iff {x : Reg} {s t : State} :
    exec (.ldB x) s = .next t ↔
      (80 ≤ s.i.toNat ∧ s.i.toNat + 3 ≤ 4096) ∧ s.storeRun (s.ea 0) (bcdDigits (s.reg x)) = t :=
  guarded_next_iff.trans (and_congr_left fun _ => writeRunCheck_none_iff (by decide))

theorem exec_ldMemVx_next_iff {x : Reg} {s t : State} :
    exec (.ldMemVx x) s = .next t ↔
      (80 ≤ s.i.toNat ∧ s.i.toNat + (x.val + 1) ≤ 4096) ∧
        (s.storeRun (s.ea 0) (s.regsUpTo x)).legacyAdvance x = t :=
  guarded_next_iff.trans (and_congr_left fun _ => writeRunCheck_none_iff (Nat.succ_pos _))

/-- An instruction leaves memory as it is, or stores one run between the font and the end of memory (R64, R66). -/
theorem exec_mem_cases {i : Instr} {s t : State} (h : exec i s = .next t) :
    t.mem = s.mem ∨ ∃ a bs, 80 ≤ a ∧ a + bs.length ≤ 4096 ∧ t.mem = s.mem.writeList a bs := by
  cases i
  case ldB x =>
    obtain ⟨⟨hlo, hhi⟩, rfl⟩ := exec_ldB_next_iff.mp h
    exact .inr ⟨_, bcdDigits (s.reg x), hlo, hhi, rfl⟩
  case ldMemVx x =>
    obtain ⟨⟨hlo, hhi⟩, rfl⟩ := exec_ldMemVx_next_iff.mp h
    exact .inr ⟨_, s.regsUpTo x, hlo, by rwa [length_regsUpTo], by simp⟩
  all_goals exact .inl (exec_mem (by nofun) (by nofun) h)

/-- R26: an instruction leaves the stack as it is, pops its newest entry into the program counter, or pushes the program
counter where there is room. -/
theorem exec_stack_cases {i : Instr} {s t : State} (h : exec i s = .next t) :
    t.stack = s.stack ∨ (i = .ret ∧ s.stack = t.pc :: t.stack) ∨
      ((∃ n, i = .call n) ∧ s.sp < 12 ∧ t.stack = s.pc :: s.stack) := by
  cases i
  case ret =>
    obtain ⟨a, rest, hstack, rfl⟩ := exec_ret_next_iff.mp h
    exact .inr (.inl ⟨rfl, hstack⟩)
  case call n =>
    obtain ⟨⟨-, hroom⟩, rfl⟩ := exec_call_next_iff.mp h
    exact .inr (.inr ⟨⟨n, rfl⟩, hroom, rfl⟩)
  all_goals exact .inl (exec_unchangedBut h .stack (by simp [writes, mem_byteParts_iff, mem_regPartsUpTo]))

theorem State.skipIf_pc_cases (s : State) (c : Bool) :
    (s.skipIf c).pc = s.pc ∨ (s.skipIf c).pc = s.pc + 2 ∨ (s.skipIf c).pc = s.pc - 2 := by
  cases c
  case false => exact .inl rfl
  case true => exact .inr (.inl rfl)

/-- R148: a target that passes its check is in the program area. -/
theorem toNat_target_range {a : Nat} {w : Word} (hcheck : checkTarget a = none) (hw : w.toNat = a) :
    512 ≤ w.toNat ∧ w.toNat ≤ 4095 := by
  rw [hw]
  exact checkTarget_none_iff.mp hcheck

/-- R24: an instruction leaves the program counter as it is, skips, rewinds, jumps into the program area, or returns. -/
theorem exec_pc_cases {i : Instr} {s t : State} (h : exec i s = .next t) :
    (t.pc = s.pc ∨ t.pc = s.pc + 2 ∨ t.pc = s.pc - 2) ∨ (512 ≤ t.pc.toNat ∧ t.pc.toNat ≤ 4095) ∨ t.pc ∈ s.stack := by
  cases i
  case ret =>
    obtain ⟨a, rest, hstack, rfl⟩ := exec_ret_next_iff.mp h
    exact .inr (.inr (by simp [hstack]))
  case call n =>
    obtain ⟨⟨hlo, -⟩, rfl⟩ := exec_call_next_iff.mp h
    have hw : (n.setWidth 16).toNat = n.toNat := BitVec.toNat_setWidth_of_le (by decide)
    exact .inr (.inl ⟨hlo.trans_eq hw.symm, by rw [State.setPc_pc]; omega⟩)
  case jp n =>
    obtain ⟨hcheck, rfl⟩ := guarded_next_iff.mp h
    exact .inr (.inl (toNat_target_range hcheck (BitVec.toNat_setWidth_of_le (by decide))))
  case jpV0 n =>
    obtain ⟨hcheck, rfl⟩ := guarded_next_iff.mp h
    have hw : (BitVec.ofNat 16 (s.indexedTarget n)).toNat = s.indexedTarget n :=
      Nat.mod_eq_of_lt (by have := checkTarget_none_iff.mp hcheck; omega)
    exact .inr (.inl (toNat_target_range hcheck hw))
  case skp | sknp =>
    obtain ⟨-, rfl⟩ := guarded_next_iff.mp h
    exact .inl (s.skipIf_pc_cases _)
  case seImm | sneImm | seReg | sneReg =>
    obtain rfl := Host.Outcome.next.inj h
    exact .inl (s.skipIf_pc_cases _)
  case ldVxK x =>
    obtain rfl := Host.Outcome.next.inj h
    rw [State.takeKey_pc]
    split
    · exact .inl (.inr (.inr rfl))
    · exact .inl (.inl rfl)
  all_goals exact .inl (.inl (exec_unchangedBut h .pc (by simp [writes, mem_byteParts_iff, mem_regPartsUpTo])))

end Sys2Proof.Machine

namespace Sys2Proof.Machine

/-! ## One completed slot, taken apart (R120, R270)

A running machine's completed slot is phase 1 where it is due, one instruction, and the end of the slot; each of the three
has its own effect on the slot count. -/

/-- A running machine's completed slot: a word in memory was decoded and executed between the phases. -/
theorem step_running_next {s u : State} (hrun : s.runState = .running) (h : step s = .next u) :
    ∃ t, runInstr (beginSlot s) = .next t ∧ endSlot t = u := by
  obtain ⟨hstop, -⟩ | ⟨-, hslot⟩ := step_next_cases h
  · simp [hrun] at hstop
  · exact hslot

/-- The instruction of a slot, from what phase 1 left. -/
theorem runInstr_beginSlot_next {s t : State} (h : runInstr (beginSlot s) = .next t) :
    s.pc.toNat ≤ 4094 ∧ ∃ i, decode s.fetchWord = .ok i ∧ exec i ((beginSlot s).setPc (s.pc + 2)) = .next t := by
  simpa using runInstr_next_cases h

@[simp] theorem beginSlot_stack (s : State) : (beginSlot s).stack = s.stack := by
  obtain ⟨-, -, -, hstack, -⟩ := beginSlot_sameProgram s
  exact hstack

theorem beginSlot_slot {s : State} (hle : s.slot ≤ 10) : (beginSlot s).slot = if s.slot = 10 then 0 else s.slot := by
  by_cases hdue : s.slot = 0 ∨ 10 ≤ s.slot
  · rw [beginSlot_of_frameDue hdue]
    simp only [phaseInput]
    split <;> omega
  · rw [beginSlot_within_frame (by omega) (by omega), if_neg (by omega)]

theorem endSlot_slot (t : State) : (endSlot t).slot = t.slot + 1 := by
  unfold endSlot
  split
  · obtain ⟨hslot, -⟩ := endFrame_control (countSlot t)
    exact hslot
  · rfl

/-- Settles O48: phase 1 clears the count where a frame begins, the instruction keeps it, and the slot is counted. -/
theorem slotCountAdvances : Obligations.SlotCountAdvances := by
  unfold Obligations.SlotCountAdvances
  intro s u hrun hle hstep
  obtain ⟨t, hinstr, rfl⟩ := step_running_next hrun hstep
  rw [endSlot_slot, runInstr_slot hinstr, beginSlot_slot hle]
  split <;> rfl

end Sys2Proof.Machine

namespace Sys2Proof.Machine

/-! ## The invariant (R24, R26, R33, R60)

Past the fetch the program counter is itself a return address, which is what makes a call push one. -/

/-- `Inv` inside a slot, past the fetch. -/
structure MidInv (s : State) : Prop where
  pc : isReturnAddress s.pc = true
  depth : s.sp ≤ 12
  stack : ∀ a ∈ s.stack, isReturnAddress a = true
  mem : s.mem.wf

theorem isReturnAddress_iff {w : Word} : isReturnAddress w = true ↔ 514 ≤ w.toNat ∧ w.toNat ≤ 4096 := by
  simp [isReturnAddress]

theorem midInv_after_fetch {s : State} (h : Inv s) (hpc : s.pc.toNat ≤ 4094) : MidInv ((beginSlot s).setPc (s.pc + 2)) := by
  obtain ⟨hlo, -, hdepth, hstack, -, hmem⟩ := h
  refine ⟨?_, ?_, ?_, ?_⟩
  · rw [State.setPc_pc, isReturnAddress_iff]
    bv_omega
  · simpa [State.sp] using hdepth
  · simpa using hstack
  · simpa using hmem

theorem exec_pc_range {i : Instr} {s t : State} (hs : MidInv s) (h : exec i s = .next t) :
    512 ≤ t.pc.toNat ∧ t.pc.toNat ≤ 4098 := by
  obtain ⟨hlo, hhi⟩ := isReturnAddress_iff.mp hs.pc
  obtain (hpc | hpc | hpc) | ⟨hlo', hhi'⟩ | hpc := exec_pc_cases h
  · rw [hpc]; omega
  · rw [hpc]; bv_omega
  · rw [hpc]; bv_omega
  · omega
  · have := isReturnAddress_iff.mp (hs.stack _ hpc)
    omega

theorem exec_keeps_stack {i : Instr} {s t : State} (hs : MidInv s) (h : exec i s = .next t) :
    t.sp ≤ 12 ∧ ∀ a ∈ t.stack, isReturnAddress a = true := by
  obtain hsame | ⟨-, hpop⟩ | ⟨-, hroom, hpush⟩ := exec_stack_cases h
  · exact ⟨by simpa only [State.sp, hsame] using hs.depth, hsame ▸ hs.stack⟩
  · have hdepth := hs.depth
    have hstack := hs.stack
    simp only [State.sp, hpop, List.length_cons, List.forall_mem_cons] at hdepth hstack ⊢
    exact ⟨by omega, hstack.2⟩
  · simp only [State.sp, hpush, List.length_cons, List.forall_mem_cons]
    exact ⟨hroom, hs.pc, hs.stack⟩

theorem exec_keeps_wf {i : Instr} {s t : State} (hs : s.mem.wf) (h : exec i s = .next t) : t.mem.wf := by
  obtain hsame | ⟨a, bs, -, hfits, hstore⟩ := exec_mem_cases h
  · rwa [hsame]
  · rw [hstore]
    exact Memory.wf_writeList hs bs hfits

/-- Settles O54: past the fetch `MidInv` holds, an instruction keeps it but for the program counter's wider range, and the
end of a slot touches only the slot count. -/
theorem stepKeepsInvariant : Obligations.StepKeepsInvariant := by
  unfold Obligations.StepKeepsInvariant
  intro s u hinv hstep
  obtain ⟨-, rfl⟩ | ⟨hrun, t, hinstr, rfl⟩ := step_next_cases hstep
  · exact hinv
  · obtain ⟨hfetch, i, -, hexec⟩ := runInstr_beginSlot_next hinstr
    have hmid := midInv_after_fetch hinv hfetch
    obtain ⟨hlo, hhi⟩ := exec_pc_range hmid hexec
    obtain ⟨hdepth, hstack⟩ := exec_keeps_stack hmid hexec
    obtain ⟨-, -, hpc', hstack', hmem', -⟩ := endSlot_sameProgram t
    have hslot : (endSlot t).slot ≤ 10 := by
      obtain ⟨-, -, -, -, hle, -⟩ := hinv
      rw [slotCountAdvances s _ hrun hle hstep]
      split <;> omega
    rw [Inv, State.sp, hpc', hstack', hmem']
    exact ⟨hlo, hhi, hdepth, List.all_eq_true.mpr hstack, hslot, exec_keeps_wf hmid.mem hexec⟩

end Sys2Proof.Machine

namespace Sys2Proof.Machine

/-! ## The fault table (R253, R256)

Every instruction is a guarded effect whose check is its row of the table: a row of the table that reports nothing guards
nothing. -/

/-- What a row of the fault table reports, as the problem an instruction's check reports. -/
def listedProblem (row : Option (FaultCause × Nat)) : Option Problem := row.map fun p => ⟨p.1, p.2⟩

@[simp] theorem listedProblem_none : listedProblem none = none := rfl

@[simp] theorem listedProblem_some (c : FaultCause) (n : Nat) : listedProblem (some (c, n)) = some ⟨c, n⟩ := rfl

@[simp] theorem listedProblem_ite (p : Prop) [Decidable p] (a b : Option (FaultCause × Nat)) :
    listedProblem (if p then a else b) = if p then listedProblem a else listedProblem b :=
  apply_ite listedProblem p a b

theorem guarded_check_congr {i : Instr} {c d : Option Problem} (h : c = d) (s t : State) :
    ∃ u, guarded i c s t = guarded i d s u :=
  ⟨t, by rw [h]⟩

theorem checkTarget_eq (t : Nat) :
    checkTarget t =
      if 4095 < t then some ⟨.addressOutOfBounds, t⟩ else if t < 512 then some ⟨.reservedTarget, t⟩ else none := rfl

/-- A 12-bit target is never above memory. -/
theorem checkTarget_imm (n : BitVec 12) :
    checkTarget n.toNat = if n.toNat < 512 then some ⟨.reservedTarget, n.toNat⟩ else none := by
  rw [checkTarget_eq, if_neg (by omega)]

/-- The bound of a run by its last address. -/
theorem runCheck_succ (a k : Nat) :
    runCheck a (k + 1) = if 4095 < a + k then some ⟨.addressOutOfBounds, max a 4096⟩ else none :=
  if_congr (by simp only [Config.memSize]; omega) rfl rfl

theorem writeRunCheck_succ (a k : Nat) :
    writeRunCheck a (k + 1) =
      if 4095 < a + k then some ⟨.addressOutOfBounds, max a 4096⟩
      else if a < 80 then some ⟨.fontWrite, a⟩ else none := by
  rw [writeRunCheck, runCheck_succ]
  split_ifs <;> rfl

theorem exec_ret_guarded (s : State) : ∃ t, exec .ret s = guarded .ret (listedProblem (faultTable s .ret)) s t := by
  cases hstack : s.stack with
  | nil =>
    have hrow : faultTable s .ret = some (.stackUnderflow, 0) := if_pos (by simp [hstack])
    exact ⟨s, by rw [hrow, listedProblem_some, guarded_some]; simp [exec, execRet, hstack, raise]⟩
  | cons a rest =>
    have hrow : faultTable s .ret = none := if_neg (by simp [hstack])
    exact ⟨_, by rw [hrow, listedProblem_none, guarded_none]; exact exec_ret_next_iff.mpr ⟨a, rest, hstack, rfl⟩⟩

/-- R253: the check of every instruction is its row of the table. -/
theorem exec_eq_guarded (i : Instr) (s : State) : ∃ t, exec i s = guarded i (listedProblem (faultTable s i)) s t := by
  cases i
  case ret => exact exec_ret_guarded s
  case jp n => exact guarded_check_congr (by simp [faultTable, checkTarget_imm]) s _
  case call n =>
    refine guarded_check_congr ?_ s _
    simp only [faultTable, listedProblem_ite, listedProblem_some, listedProblem_none, checkTarget_imm]
    split <;> rfl
  case jpV0 n => exact guarded_check_congr (by simp [faultTable, checkTarget_eq]) s _
  case addI x => exact guarded_check_congr (by simp [faultTable, indexSumCheck]) s _
  case ldF x => exact guarded_check_congr (by simp [faultTable, glyphCheck]) s _
  case skp x | sknp x => exact guarded_check_congr (by simp [faultTable, keyCheck]) s _
  case ldB x => exact guarded_check_congr (by simp [faultTable, writeRunCheck_succ]) s _
  case ldMemVx x => exact guarded_check_congr (by simp [faultTable, writeRunCheck_succ]) s _
  case ldVxMem x => exact guarded_check_congr (by simp [faultTable, runCheck_succ]) s _
  case drw x y n =>
    refine guarded_check_congr ?_ s _
    simp only [faultTable, listedProblem_ite, listedProblem_some, listedProblem_none]
    exact if_congr (by simp only [Config.memSize, State.ea]; omega) rfl rfl
  all_goals exact ⟨_, rfl⟩

/-- Settles O10: an instruction raises what its row of the table reports, and completes when the row reports nothing. -/
theorem faultsExactlyByTheTable : Obligations.FaultsExactlyByTheTable := by
  unfold Obligations.FaultsExactlyByTheTable
  intro i s
  obtain ⟨t, hexec⟩ := exec_eq_guarded i s
  split
  next c n hrow => rw [hexec, hrow, listedProblem_some, guarded_some]; rfl
  next hrow => exact ⟨t, by rw [hexec, hrow, listedProblem_none, guarded_none]⟩

end Sys2Proof.Machine

namespace Sys2Proof.Machine

/-! ## What an instruction leaves alone (R21, R26, R34, R61, R64) -/

/-- R21: an instruction that defines no flag writes the registers it names and no other. -/
theorem namesDestination_of_mem_writes {i : Instr} {s : State} {r : Reg} (hflag : definesFlag i = false)
    (h : Part.reg r ∈ writes s i) : namesDestination r i = true := by
  cases i
  case ldMemVx | ldB => simp [writes, mem_byteParts_iff] at h
  case ldVxMem => simpa [writes, mem_regPartsUpTo, namesDestination] using h
  case ldImm | addImm | ldReg | ldVxDT | rnd | ldVxK => simpa [writes, namesDestination] using h
  case orReg | andReg | xorReg | addReg | subReg | shr | subn | shl | drw => simp [definesFlag] at hflag
  all_goals simp [writes] at h

/-- Settles O19: a flag register that the instruction does not name is outside its row of `writes`. -/
theorem flagRegisterWrittenOnlyWhereListed : Obligations.FlagRegisterWrittenOnlyWhereListed := by
  unfold Obligations.FlagRegisterWrittenOnlyWhereListed
  intro i s t hflag hname hexec
  refine exec_unchangedBut hexec (.reg VF) fun hmem => ?_
  simp [namesDestination_of_mem_writes hflag hmem] at hname

/-- Settles O26: a pop leaves the tail, a push adds the program counter, and every other instruction keeps the stack. -/
theorem onlyCallAndReturnTouchStack : Obligations.OnlyCallAndReturnTouchStack := by
  unfold Obligations.OnlyCallAndReturnTouchStack
  intro i s t hexec
  obtain hsame | ⟨hret, hpop⟩ | ⟨⟨n, hcall⟩, -, hpush⟩ := exec_stack_cases hexec
  · exact .inl hsame
  · exact .inr (.inl ⟨hret, by rw [hpop, List.tail_cons]⟩)
  · exact .inr (.inr ⟨n, hcall, hpush⟩)

/-- Settles O34: memory stays the same list of cells. -/
theorem onlyStoresWriteMemory : Obligations.OnlyStoresWriteMemory := by
  unfold Obligations.OnlyStoresWriteMemory
  intro i s t hB hM hexec a
  rw [exec_mem hB hM hexec]

/-- Settles O39: the screen and the dirty bit are in the rows of these two instructions only. -/
theorem onlyClearAndDrawTouchScreen : Obligations.OnlyClearAndDrawTouchScreen := by
  unfold Obligations.OnlyClearAndDrawTouchScreen
  intro i s t hexec hcls hdrw
  obtain ⟨hscreen, hdirty⟩ : Part.screen ∉ writes s i ∧ Part.dirty ∉ writes s i := by
    cases i
    case cls => exact absurd rfl hcls
    case drw x y n => exact absurd rfl (hdrw x y n)
    all_goals simp [writes, mem_byteParts_iff, mem_regPartsUpTo]
  exact ⟨exec_unchangedBut hexec .screen hscreen, exec_unchangedBut hexec .dirty hdirty⟩

/-- R61: an instruction stores from address 80 up. -/
theorem exec_font {i : Instr} {s t : State} (h : exec i s = .next t) {a : Nat} (ha : a < 80) :
    t.mem.byte a = s.mem.byte a := by
  obtain hsame | ⟨b, bs, hlo, -, hstore⟩ := exec_mem_cases h
  · rw [hsame]
  · rw [hstore, Memory.byte_writeList_outside _ _ _ _ (by omega)]

/-- Settles O35: the instruction of a slot keeps the font, and no frame phase writes memory. -/
theorem fontIsNeverWritten : Obligations.FontIsNeverWritten := by
  unfold Obligations.FontIsNeverWritten
  intro s u hstep a ha
  obtain ⟨-, rfl⟩ | ⟨-, t, hinstr, rfl⟩ := step_next_cases hstep
  · rfl
  · obtain ⟨-, i, -, hexec⟩ := runInstr_beginSlot_next hinstr
    obtain ⟨-, -, -, -, hmem, -⟩ := endSlot_sameProgram t
    rw [hmem, exec_font hexec ha, State.setPc_mem, beginSlot_mem]

end Sys2Proof.Machine

namespace Sys2Proof.Machine

/-! ## Call and return (R140, R142) -/

/-- Settles O22: there is room for one more entry, and a 12-bit target keeps its value. -/
theorem callPushesReturnAddress : Obligations.CallPushesReturnAddress := by
  unfold Obligations.CallPushesReturnAddress
  intro n s hlo hroom
  have hexec := exec_call_next_iff.mpr ⟨⟨hlo, hroom⟩, rfl⟩
  exact ⟨_, hexec, rfl, rfl, BitVec.toNat_setWidth_of_le (by decide), exec_unchangedBut hexec⟩

/-- Settles O23: a stack with a newest entry is no underflow. -/
theorem returnPopsIntoPc : Obligations.ReturnPopsIntoPc := by
  unfold Obligations.ReturnPopsIntoPc
  intro s a rest hstack
  have hexec := exec_ret_next_iff.mpr ⟨a, rest, hstack, rfl⟩
  exact ⟨_, hexec, rfl, rfl, by simp [State.sp, hstack], exec_unchangedBut hexec⟩

/-- Settles O25: the newest entry the return finds is the program counter the call pushed. -/
theorem returnUndoesCall : Obligations.ReturnUndoesCall := by
  unfold Obligations.ReturnUndoesCall
  intro n s t t' hcall hstack
  obtain ⟨-, rfl⟩ := exec_call_next_iff.mp hcall
  exact ⟨_, exec_ret_next_iff.mpr ⟨s.pc, s.stack, hstack, rfl⟩, rfl, rfl⟩

end Sys2Proof.Machine

namespace Sys2Proof.Machine

/-! ## Index arithmetic and the register round trip (R191, R192, R194, R195) -/

/-- Settles O28: a sum that fits the index register is stored as it is. -/
theorem addToIndex : Obligations.AddToIndex := by
  unfold Obligations.AddToIndex
  intro x s hfits
  have hexec : exec (.addI x) s = .next (s.setI (BitVec.ofNat 16 (s.indexSum x))) :=
    guarded_next_iff.mpr ⟨indexSumCheck_none_iff.mpr hfits, rfl⟩
  exact ⟨_, hexec, Nat.mod_eq_of_lt (Nat.lt_succ_of_le hfits), exec_unchangedBut hexec⟩

/-- Settles O29: the address of a glyph is at most 75, so it fits the index register. -/
theorem glyphAddressIsFiveTimes : Obligations.GlyphAddressIsFiveTimes := by
  unfold Obligations.GlyphAddressIsFiveTimes
  intro x s hglyph
  have hexec : exec (.ldF x) s = .next (s.setI (glyphAddr (s.reg x))) :=
    guarded_next_iff.mpr ⟨glyphCheck_none_iff.mpr hglyph, rfl⟩
  exact ⟨_, hexec, Nat.mod_eq_of_lt (by simp only [Config.glyphBytes]; omega), exec_unchangedBut hexec⟩

/-- Settles O33: the store that completed leaves every register in its byte of the run, and the load reads them there. -/
theorem storeThenLoadRestores : Obligations.StoreThenLoadRestores := by
  unfold Obligations.StoreThenLoadRestores
  intro x s t t' hstore hmem hi
  obtain ⟨⟨hlo, hhi⟩, -⟩ := exec_ldMemVx_next_iff.mp hstore
  obtain ⟨v, hstore', hbytes, -⟩ := registersAreStored x s hlo (by omega)
  obtain rfl : t = v := Host.Outcome.next.inj (hstore.symm.trans hstore')
  obtain ⟨u, hload, hregs, -⟩ := registersAreLoaded x t' (by rw [hi]; omega)
  refine ⟨u, hload, fun r hr => ?_⟩
  rw [hregs r hr, hmem, State.ea, hi]
  exact hbytes r hr

end Sys2Proof.Machine

namespace Sys2Proof.Machine

/-! ## Drawing a sprite again (R211) -/

theorem exec_drw_next_iff {x y : Reg} {n : BitVec 4} {s t : State} :
    exec (.drw x y n) s = .next t ↔
      (n.toNat = 0 ∨ s.i.toNat + n.toNat - 1 ≤ 4095) ∧ s.drawSprite x y n = t :=
  guarded_next_iff.trans (and_congr_left fun _ => runCheck_none_iff.trans (by simp only [State.ea]; omega))

/-- The sprite stays what and where it is when neither coordinate is read from the flag register. -/
theorem spriteLit_drawSprite {x y : Reg} (hx : x ≠ VF) (hy : y ≠ VF) (s : State) (n : BitVec 4) (row col : Nat) :
    spriteLit (s.drawSprite x y n) x y n row col = spriteLit s x y n row col := by
  have hregx : (s.drawSprite x y n).reg x = s.reg x := (s.reg_drawSprite x y x n).trans (if_neg hx)
  have hregy : (s.drawSprite x y n).reg y = s.reg y := (s.reg_drawSprite x y y n).trans (if_neg hy)
  simp only [spriteLit, hregx, hregy, State.drawSprite_mem, State.drawSprite_i]

/-- Settles O38: an exclusive-or with the same dots twice is none, and a dot the first draw lit is lit in both the screen and
the sprite of the second. -/
theorem drawingTwiceRestoresScreen : Obligations.DrawingTwiceRestoresScreen := by
  unfold Obligations.DrawingTwiceRestoresScreen
  intro x y n s t hx hy hdraw
  obtain ⟨hroom, rfl⟩ := exec_drw_next_iff.mp hdraw
  refine ⟨_, exec_drw_next_iff.mpr ⟨hroom, rfl⟩, fun row col hrow hcol => ?_, ?_⟩
  · rw [State.pixel_drawSprite _ x y n hrow hcol, s.pixel_drawSprite x y n hrow hcol, spriteLit_drawSprite hx hy,
      Bool.xor_assoc, Bool.xor_self, Bool.xor_false]
  · classical
    rintro ⟨row, col, hrow, hcol, hoff, hon⟩
    have hlit : spriteLit s x y n row col = true := by
      rwa [s.pixel_drawSprite x y n hrow hcol, hoff, Bool.false_xor] at hon
    have hcollides : Collides (s.drawSprite x y n) x y n :=
      ⟨row, col, hrow, hcol, hon, (spriteLit_drawSprite hx hy s n row col).trans hlit⟩
    rw [State.reg_drawSprite_flag, if_pos hcollides]

end Sys2Proof.Machine

namespace Sys2Proof.Machine

/-! ## Keypad and sound timer (R230 to R232, R235) -/

/-- Settles O40: with a key code the check passes, and each of the two is a skip on the held bit. -/
theorem keySkips : Obligations.KeySkips := by
  unfold Obligations.KeySkips
  intro x s hcode
  have hcheck : keyCheck (s.reg x) = none := keyCheck_none_iff.mpr hcode
  exact ⟨exec_skip (guarded_next_iff.mpr ⟨hcheck, rfl⟩) Iff.rfl,
    exec_skip (guarded_next_iff.mpr ⟨hcheck, rfl⟩) (Bool.not_eq_true' _).to_iff⟩

/-- Settles O41: a key code fits a byte; without an event the effect is one write of the program counter. -/
theorem keyWaitTakesEventOrRewinds : Obligations.KeyWaitTakesEventOrRewinds := by
  unfold Obligations.KeyWaitTakesEventOrRewinds
  intro x s
  constructor
  · intro k hevent
    refine ⟨s.takeKey x, rfl, ?_, s.takeKey_keyEvent x, State.takeKey_unchangedBut_of_some hevent x⟩
    rw [State.reg_takeKey, hevent]
    simp only [if_true]
    exact Nat.mod_eq_of_lt (by omega)
  · intro hevent
    refine ⟨s.takeKey x, rfl, ?_, ?_⟩ <;> rw [State.takeKey_of_none hevent]
    · rfl
    · exact s.setPc_unchangedBut _

/-- Settles O43: the two branches of FX18 on the value. -/
theorem soundTimerWrite : Obligations.SoundTimerWrite := by
  unfold Obligations.SoundTimerWrite
  intro x s
  refine ⟨_, rfl, ?_, fun hne => ?_, fun hzero => ?_, s.setSound_unchangedBut (s.reg x)⟩
  · split
    next hzero => exact hzero.symm
    next => rfl
  · rw [if_neg hne]
    exact ⟨rfl, rfl⟩
  · rw [if_pos hzero]
    exact ⟨rfl, rfl⟩

end Sys2Proof.Machine

namespace Sys2Proof.Machine

/-! ## The latches and the timers within a frame (R36, R271, R312, R313)

A slot that does not end a frame is followed by nothing but the count, so the fields the count does not hold are those the
instruction left. -/

/-- Settles O44: the two cases of phase 1. -/
theorem inputPhaseLatchesHostRecord : Obligations.InputPhaseLatchesHostRecord := by
  unfold Obligations.InputPhaseLatchesHostRecord
  refine fun s => ⟨fun hdue => ?_, beginSlot_within_frame⟩
  rw [beginSlot_of_frameDue hdue]
  refine ⟨rfl, rfl, rfl, fun p hp => ?_⟩
  cases p
  case keysHeld | keyEvent | slot => simp at hp
  all_goals rfl

/-- A completed slot that does not end a frame. -/
theorem step_running_earlier_slot {s u : State} (hrun : s.runState = .running) (hle : s.slot ≤ 10) (hne : s.slot ≠ 9)
    (h : step s = .next u) :
    ∃ i t, decode s.fetchWord = .ok i ∧ exec i ((beginSlot s).setPc (s.pc + 2)) = .next t ∧ countSlot t = u := by
  obtain ⟨t, hinstr, rfl⟩ := step_running_next hrun h
  obtain ⟨-, i, hdecode, hexec⟩ := runInstr_beginSlot_next hinstr
  exact ⟨i, t, hdecode, hexec, (endSlot_of_earlier_slot hle hne hinstr).symm⟩

/-- Settles O51: phase 1 and the count leave the delay timer, and the instruction is not FX15. -/
theorem delayTimerHoldsWithinFrame : Obligations.DelayTimerHoldsWithinFrame := by
  unfold Obligations.DelayTimerHoldsWithinFrame
  intro s u i hrun hle hne hdecode hnot hstep
  obtain ⟨j, t, hdecode', hexec, rfl⟩ := step_running_earlier_slot hrun hle hne hstep
  obtain rfl : i = j := Except.ok.inj (hdecode.symm.trans hdecode')
  obtain ⟨hbegin, -⟩ := beginSlot_control s
  obtain hkeep | ⟨x, hx⟩ := exec_delay hexec
  · exact hkeep.trans hbegin
  · exact absurd hx (hnot x)

/-- Settles O57: phase 1 and the count leave the sound timer and the tone, and the instruction is not FX18. -/
theorem soundTimerHoldsWithinFrame : Obligations.SoundTimerHoldsWithinFrame := by
  unfold Obligations.SoundTimerHoldsWithinFrame
  intro s u i hrun hle hne hdecode hnot hstep
  obtain ⟨j, t, hdecode', hexec, rfl⟩ := step_running_earlier_slot hrun hle hne hstep
  obtain rfl : i = j := Except.ok.inj (hdecode.symm.trans hdecode')
  obtain ⟨-, hst, -, -, htone, -⟩ := beginSlot_control s
  obtain ⟨hst', htone', -⟩ | ⟨x, hx, -⟩ := exec_sound hexec
  · exact ⟨hst'.trans hst, htone'.trans htone⟩
  · exact absurd hx (hnot x)

/-- The end of a slot writes no input latch. -/
theorem endSlot_latches (t : State) : (endSlot t).keysHeld = t.keysHeld ∧ (endSlot t).keyEvent = t.keyEvent := by
  unfold endSlot
  split
  · obtain ⟨-, -, -, -, hkeys, hevent⟩ := endFrame_control (countSlot t)
    exact ⟨hkeys, hevent⟩
  · exact ⟨rfl, rfl⟩

/-- Settles O50: within a frame phase 1 is not due, so the latches are those the instruction left. -/
theorem latchesHoldWithinFrame : Obligations.LatchesHoldWithinFrame := by
  unfold Obligations.LatchesHoldWithinFrame
  intro s u hrun hlo hhi hstep
  obtain ⟨t, hinstr, rfl⟩ := step_running_next hrun hstep
  obtain ⟨-, i, hdecode, hexec⟩ := runInstr_beginSlot_next hinstr
  rw [beginSlot_within_frame hlo hhi] at hexec
  obtain ⟨-, -, -, hkeys, -⟩ := exec_sameControl hexec
  obtain ⟨hkeys', hevent'⟩ := endSlot_latches t
  refine ⟨hkeys'.trans hkeys, ?_⟩
  rw [hevent']
  obtain hkeep | ⟨hnone, x, rfl⟩ := exec_keyEvent hexec
  · exact .inl hkeep
  · exact .inr ⟨hnone, x, hdecode⟩

end Sys2Proof.Machine

namespace Sys2Proof.Machine

/-! ## Stopping, and the strap (R29, R129, R275, R302) -/

/-- The instruction of a slot, seen from before phase 1: it leaves the run state and the host's records. -/
theorem runInstr_beginSlot_control {s t : State} (h : runInstr (beginSlot s) = .next t) :
    t.runState = s.runState ∧ t.hostNow = s.hostNow := by
  obtain ⟨-, hstate, -, -, hqueue, hidle⟩ := runInstr_sameControl h
  obtain ⟨-, -, -, hstate', -, hqueue', -⟩ := beginSlot_control s
  obtain ⟨-, -, -, -, -, -, -, hidle', -⟩ := beginSlot_sameProgram s
  refine ⟨hstate.trans hstate', ?_⟩
  simp only [State.hostNow, hqueue, hidle, hqueue', hidle']

/-- Settles O49: phase 5 alone writes the run state of a completed slot, and it comes with the tenth. -/
theorem stopsOnlyOnRequestAtFrameEnd : Obligations.StopsOnlyOnRequestAtFrameEnd := by
  unfold Obligations.StopsOnlyOnRequestAtFrameEnd
  intro s u hrun hle hstep
  obtain ⟨t, hinstr, rfl⟩ := step_running_next hrun hstep
  obtain ⟨hstate, hhost⟩ := runInstr_beginSlot_control hinstr
  rw [hrun] at hstate
  by_cases hnine : s.slot = 9
  · obtain ⟨-, hstop, -⟩ := endFrame_control (countSlot t)
    have hcount : (countSlot t).hostNow = s.hostNow := hhost
    rw [endSlot_of_tenth_slot hnine hinstr, hstop, hcount]
    simp [hnine, countSlot, hstate]
  · rw [endSlot_of_earlier_slot hle hnine hinstr]
    simp [hnine, countSlot, hstate]

theorem beginSlot_legacy (s : State) : (beginSlot s).legacy = s.legacy := by
  obtain ⟨-, -, -, -, -, -, hlegacy, -⟩ := beginSlot_sameProgram s
  exact hlegacy

theorem step_legacy {s u : State} (h : step s = .next u) : u.legacy = s.legacy := by
  obtain ⟨-, rfl⟩ | ⟨-, t, hinstr, rfl⟩ := step_next_cases h
  · rfl
  · obtain ⟨-, -, -, -, -, -, hend, -⟩ := endSlot_sameProgram t
    obtain ⟨hlegacy, -⟩ := runInstr_sameControl hinstr
    exact hend.trans (hlegacy.trans (beginSlot_legacy s))

theorem tick_legacy (s : State) : (tick s).legacy = s.legacy := by
  cases hstep : step s with
  | next u => rw [tick_of_step_next hstep, step_legacy hstep]
  | fault f =>
    obtain ⟨r⟩ := f
    rw [tick, hstep, stateAfter]
    split
    · rfl
    · exact beginSlot_legacy s
  | refused r => exact absurd hstep (step_not_refused s r)

/-- Settles O53: by induction on the number of slots. -/
theorem legacyNeverChanges : Obligations.LegacyNeverChanges := by
  unfold Obligations.LegacyNeverChanges
  intro k
  induction k with
  | zero => exact fun s => rfl
  | succ k ih => exact fun s => (ih (tick s)).trans (tick_legacy s)

end Sys2Proof.Machine

namespace Sys2Proof.Machine

/-! ## Reset (R39, R300, R301)

Memory after reset is the cells of the font followed by those of the image; the two runs share no address, so each byte is
read from the one run that can list it. -/

/-- Settles O55: but for memory the invariant reads what `State.reset` fixes, and the cells of the font and of an image that
fits are in canonical form. -/
theorem invariantAtReset : Obligations.InvariantAtReset := by
  unfold Obligations.InvariantAtReset
  have hreset : Inv State.reset := by decide
  refine ⟨hreset, fun legacy font image => ?_⟩
  obtain ⟨hlo, hhi, hdepth, hstack, hslot, -⟩ := hreset
  exact ⟨hlo, hhi, hdepth, hstack, hslot, loadedMemory_wf font image⟩

/-- The first part decides a byte where the second lists nothing new. -/
theorem Memory.byte_append_left {m n : Memory} {a : Nat} (h : n.byte a = initialByte a) :
    (m ++ n : Memory).byte a = m.byte a := by
  rw [Memory.byte_append]
  split
  next => rfl
  next hm => rw [h, Memory.byte_of_not_listed m a fun c hc hca => hm ⟨c, hc, hca⟩]

/-- The second part decides a byte that the first does not list. -/
theorem Memory.byte_append_right {m n : Memory} {a : Nat} (h : ∀ c ∈ m, c.1 ≠ a) :
    (m ++ n : Memory).byte a = n.byte a := by
  rw [Memory.byte_append, if_neg]
  rintro ⟨c, hc, hca⟩
  exact h c hc hca

theorem Memory.byte_ofBytes_outside {a b : Nat} {bs : List Byte} (h : b < a ∨ a + bs.length ≤ b) :
    (Memory.ofBytes a bs).byte b = initialByte b :=
  Memory.byte_of_not_listed _ _ fun c hc => by
    obtain ⟨hlo, hhi, -⟩ := Memory.ofBytes_range a bs c hc
    omega

theorem Memory.byte_ofBytes_inside (a : Nat) (bs : List Byte) {k : Nat} (h : k < bs.length) :
    (Memory.ofBytes a bs).byte (a + k) = bs[k] := by
  rw [Memory.byte_ofBytes]
  simp [h]

theorem loadedMemory_font (font : Vector Byte 80) (image : List Byte) {a : Nat} (h : a < 80) :
    (loadedMemory font image).byte a = font[a] := by
  have hlt : a < font.toList.length := by rwa [Vector.length_toList]
  have hbyte := Memory.byte_ofBytes_inside 0 font.toList hlt
  rw [Nat.zero_add, Vector.getElem_toList] at hbyte
  rw [loadedMemory, Memory.byte_append_left]
  · exact hbyte
  · split
    · exact Memory.byte_ofBytes_outside (.inl (by simp only [Config.progBase]; omega))
    · rfl

/-- From address 80 up memory holds the cells of the image alone. -/
theorem loadedMemory_above_font (font : Vector Byte 80) {image : List Byte} (hfits : image.length ≤ 3584) {a : Nat}
    (h : 80 ≤ a) : (loadedMemory font image).byte a = (Memory.ofBytes 512 image).byte a := by
  rw [loadedMemory, Memory.byte_append_right, if_pos hfits]
  intro c hc
  obtain ⟨-, hhi, -⟩ := Memory.ofBytes_range 0 font.toList c hc
  rw [Vector.length_toList] at hhi
  omega

/-- Settles O56: the zeros are `State.reset`'s own, memory is read run by run, and the length of the image decides the run
state. -/
theorem resetLoadsFontAndImage : Obligations.ResetLoadsFontAndImage := by
  unfold Obligations.ResetLoadsFontAndImage
  rintro legacy font image s rfl
  refine ⟨rfl, rfl, fun a h => loadedMemory_font font image h, fun r => ?_, rfl, rfl, rfl, rfl, rfl, rfl, rfl, rfl, rfl,
    FrameBuffer.pixel_blank, fun hfits => ⟨if_pos hfits, fun j hj => ?_, fun a hlo hout => ?_⟩, fun hlong => ?_⟩
  · exact Vector.getElem_replicate _
  · exact (loadedMemory_above_font font hfits (by omega)).trans (Memory.byte_ofBytes_inside 512 image hj)
  · calc (loadedMemory font image).byte a
        = (Memory.ofBytes 512 image).byte a := loadedMemory_above_font font hfits hlo
      _ = initialByte a := Memory.byte_ofBytes_outside hout
      _ = 0 := initialByte_eq_zero hlo
  · exact if_neg (Nat.not_le.mpr hlong)

end Sys2Proof.Machine
